-- ==== Sys2Proof/Word.lean ====
section
/-! DEFINITION. The Word: the one data type of the machine (00_scope.md R5, R6, R8; 10_state.md R26).

A Word is a mathematical integer, an `Int`, that is kept in -9999..9999 (`inWord`). The range is an invariant of the machine (10_state.md R25),
not part of the type: `Sys2Proof.Machine.State.Inv` says that every stored Word has it, and every step keeps it.
DESIGN CHOICE (the spec's decision D13, log 5): no binary representation; safe.
The divisions of R6 are Lean's own: `tdiv(a, b)` is `Int.tdiv a b`, `tmod(a, b)` is `Int.tmod a b`. -/

set_option autoImplicit false

namespace Sys2Proof

/-- `inWord(v)` of 00_scope.md R6: `WORD_MIN <= v and v <= WORD_MAX`. -/
abbrev inWord (v : Int) : Prop := -9999 ≤ v ∧ v ≤ 9999

/-- The addresses of either memory are 0 to 99 and nothing else (20_memory.md R38; `MEM_SIZE` of 00_scope.md R4). -/
abbrev inMemory (a : Nat) : Prop := a < 100

/-- `SENTINEL` of 00_scope.md R4: the loader's end mark, never a Word (45_host_interface.md R142). -/
abbrev sentinel : Int := -99999

end Sys2Proof
end

