-- ==== Sys2Proof/Syntax.lean ====
section
/-! DEFINITION. The instructions: one constructor per row of spec/opcode_table.json (30_encoding.md R55), each with its operand. -/

set_option autoImplicit false

namespace Sys2Proof

/-- An instruction with its operand, the two low decimal digits of its Word (30_encoding.md R51, R58). HALT keeps its operand too,
although it does not use it: the hundred Words 4300..4399 are a hundred HALTs (R58). -/
inductive Instr where
  | read (a : Nat)
  | write (a : Nat)
  | load (a : Nat)
  | store (a : Nat)
  | add (a : Nat)
  | subtract (a : Nat)
  | divide (a : Nat)
  | remainder (a : Nat)
  | multiply (a : Nat)
  | branch (a : Nat)
  | branchneg (a : Nat)
  | branchzero (a : Nat)
  | halt (a : Nat)
deriving DecidableEq, Repr

/-- The operand of an instruction. -/
def Instr.operand : Instr → Nat
  | .read a => a
  | .write a => a
  | .load a => a
  | .store a => a
  | .add a => a
  | .subtract a => a
  | .divide a => a
  | .remainder a => a
  | .multiply a => a
  | .branch a => a
  | .branchneg a => a
  | .branchzero a => a
  | .halt a => a

end Sys2Proof
end

