-- ==== Sys2Proof/WellFormed.lean ====
section
/-! DEFINITION. Which terms of `Instr` the encoding can hold (30_encoding.md R51, R57): the operand has two decimal digits. -/

set_option autoImplicit false

namespace Sys2Proof

/-- The operand is in 0..99, as every operand of a legal Word is (30_encoding.md R57). -/
abbrev Instr.WellFormed (i : Instr) : Prop := i.operand ≤ 99

end Sys2Proof
end

