-- ==== Sys2Proof/Decode.lean ====
section
/-! DEFINITION. The codec (30_encoding.md): decoding, which is total and rejects by name, then encoding. -/

set_option autoImplicit false

namespace Sys2Proof

/-- Decode of 30_encoding.md R52, on the two fields: `decode(w) = (tdiv(w, 100), tmod(w, 100))`. -/
def codecDecode (w : Int) : Int × Int := (w.tdiv 100, w.tmod 100)

/-- Encode of 30_encoding.md R53, on the two fields: `opcode*100 + operand`. -/
def codecEncode (opcode operand : Int) : Int := opcode * 100 + operand

/-- Why a Word is no instruction. -/
inductive DecodeReject where
  /-- The opcode is none of the thirteen (30_encoding.md R56): dispatch raises `UnknownOpcode`. -/
  | unknownOpcode (opcode operand : Int)
deriving DecidableEq, Repr

/-- The opcode map of 30_encoding.md R55. -/
def instrOfOpcode (opcode : Int) (a : Nat) : Option Instr :=
  match opcode with
  | 10 => some (.read a)
  | 11 => some (.write a)
  | 20 => some (.load a)
  | 21 => some (.store a)
  | 30 => some (.add a)
  | 31 => some (.subtract a)
  | 32 => some (.divide a)
  | 33 => some (.remainder a)
  | 34 => some (.multiply a)
  | 40 => some (.branch a)
  | 41 => some (.branchneg a)
  | 42 => some (.branchzero a)
  | 43 => some (.halt a)
  | _ => none

/-- The instruction a Word stands for: the opcode alone selects it (30_encoding.md R55, 40_cycle.md R75). The operand of a legal
Word is not negative (R57), so `toNat` loses nothing. -/
def decode (w : Int) : Except DecodeReject Instr :=
  match instrOfOpcode (codecDecode w).1 (codecDecode w).2.toNat with
  | some i => .ok i
  | none => .error (.unknownOpcode (codecDecode w).1 (codecDecode w).2)

/-- The opcode of an instruction (30_encoding.md R55). -/
def Instr.opcode : Instr → Int
  | .read _ => 10
  | .write _ => 11
  | .load _ => 20
  | .store _ => 21
  | .add _ => 30
  | .subtract _ => 31
  | .divide _ => 32
  | .remainder _ => 33
  | .multiply _ => 34
  | .branch _ => 40
  | .branchneg _ => 41
  | .branchzero _ => 42
  | .halt _ => 43

/-- The Word of an instruction (30_encoding.md R53). -/
def encode (i : Instr) : Int := codecEncode i.opcode i.operand

/-- The thirteen legal opcodes (30_encoding.md R55). -/
def legalOpcodes : List Int := [10, 11, 20, 21, 30, 31, 32, 33, 34, 40, 41, 42, 43]

/-- The Word that a pattern of bits stands for, where a tool gives an instruction as bits. The spec gives a Word no bits at all
(10_state.md R26). DESIGN CHOICE (log 21): the low `nbits` bits of `w`, the rest 0, read as one 16-bit two's-complement integer;
safe: nothing of the machine uses it. -/
def wordOfBits (nbits w : Nat) : Option Int :=
  let u := w % 2 ^ nbits
  let v : Int := if u < 32768 then u else u - 65536
  if u < 65536 ∧ inWord v then some v else none

/-- The instruction that the decoder reads from a pattern of bits (log 21). -/
def decodeTableWord (nbits w : Nat) : Option Instr :=
  match wordOfBits nbits w with
  | some v => (decode v).toOption
  | none => none

end Sys2Proof
end

