-- ==== Sys2Proof/Config.lean ====
section
/-! DEFINITION. What is fixed for one machine: the parameters of 00_scope.md R4, and the one free value.

The parameters are plain data, so a statement about every state holds for every value of them. `MEMORY_CONFIG` is the shape of a
`Store` (10_state.md R20), `PM_INIT` and `DM_INIT` are its contents at reset (70_reset_and_hazards.md R202). -/

set_option autoImplicit false

namespace Sys2Proof

/-- One memory of 100 Words, sparse: the cells listed, at rising addresses; an address that is not listed reads as
`Sys2Proof.Machine.unlistedWord`. The canonical form is `Sys2Proof.Machine.Memory.wf`. DESIGN CHOICE (log 4): pairs of an address
and a Word, since the Word is the smallest unit there is (20_memory.md R35); safe. -/
structure Memory where
  cells : List (Nat × Int)
deriving DecidableEq, Repr

/-- The memories of a machine, in one of the two configurations of 10_state.md R20. Where `PM` and `DM` are two names of one
array, that array is held once. -/
inductive Store where
  /-- `MEMORY_CONFIG = split`: program memory and data memory are independent. -/
  | split (pm dm : Memory)
  /-- `MEMORY_CONFIG = unified`: one array `M`. -/
  | unified (m : Memory)
deriving DecidableEq, Repr

/-- `LOADER_FULL_POLICY` (45_host_interface.md R145). -/
inductive LoaderFullPolicy where
  | faultAfter100thWrite
  | faultOn101stWord
deriving DecidableEq, Repr

/-- The parameters of one machine, with the spec's defaults (00_scope.md R4): split, all cells 0, fault after the 100th write.
DESIGN CHOICE (D1, D3, D10: log 1, log 3, log 12). -/
structure Config where
  /-- `MEMORY_CONFIG`, `PM_INIT` and `DM_INIT`: the memories as reset leaves them. -/
  initial : Store := .split ⟨[]⟩ ⟨[]⟩
  /-- `LOADER_FULL_POLICY`. -/
  loaderFull : LoaderFullPolicy := .faultAfter100thWrite
deriving DecidableEq, Repr

/-- FREE VALUE (10_state.md R11, 93_implementation_defined.md U3, log 16): the `ip` that a load leaves, any value in 0..100. It is
applied to the counter `State.draws`. It has no body: nothing can be proved of it but its range. -/
opaque Config.ipAfterLoad : Nat → Fin 101

end Sys2Proof
end

