-- ==== Sys2Proof/Machine/State.lean ====
section
/-! DEFINITION. The state of the machine (10_state.md), as plain data, and the machine right after reset
(70_reset_and_hazards.md R200 to R202). -/

set_option autoImplicit false

namespace Sys2Proof.Machine

/-- `es` (10_state.md R16). `idle` is the spec's own name (D4, log 6). -/
inductive EngineState where
  | idle
  | running
  | haltedNormal
  | haltedFault
deriving DecidableEq, Repr

/-- The five fatal kinds (60_exceptions.md R170, R171). -/
inductive FaultKind where
  | arithmeticOverflow
  | divisionByZero
  | remainderByZero
  | unknownOpcode
  | programBoundsExceeded
deriving DecidableEq, Repr

/-- What the input collaborator answers to one request (45_host_interface.md R147). -/
inductive Candidate where
  /-- An integer of any magnitude. -/
  | value (v : Int)
  /-- A response that is no integer. -/
  | unparsable
deriving DecidableEq, Repr

/-- The two notices (40_cycle.md R77). -/
inductive Notice where
  | abnormal
  | terminated
deriving DecidableEq, Repr

/-- The report of 45_host_interface.md R155: the five registers, then the memory regions in use, each as its 100 Words in the
order of their addresses. -/
structure Report where
  acc : Int
  ip : Nat
  ir : Int
  opc : Int
  opd : Int
  regions : List (List Int)
deriving DecidableEq, Repr

/-- One event on the output port (45_host_interface.md R150). -/
inductive Event where
  | out (v : Int)
  | notice (n : Notice)
  | report (r : Report)
deriving DecidableEq, Repr

/-- What `load` returns (45_host_interface.md R141). -/
inductive LoadResult where
  | ok (programLength : Nat)
  | programTooLarge
deriving DecidableEq, Repr

/-- How far the host's one call of `load` has come (45_host_interface.md R140, R141, R158; log 18). -/
inductive LoaderPhase where
  | notCalled
  /-- The call waits for candidates (R149); the next Word goes to the load address. -/
  | loading (loadAddress : Nat)
  | returned (result : LoadResult)
deriving DecidableEq, Repr

/-- The reasons of `Host.Outcome.fault`. They are not the machine's faults: the five fatal faults are NEXT states (60_exceptions.md
R176, log 23). -/
inductive Fault where
  /-- The machine is stuck: it has NO STEP. Raised by `execRead`, and so by `step`, for a READ that finds no valid candidate
  (41_io.md R91, 93_implementation_defined.md U10). It is a hang, no fault of the machine: `es` stays Running, `fc` stays `none`, no
  report goes out, and the same state has a step again once a valid candidate is supplied. What the registers are meanwhile is
  `State.blockedInRead` (log 15). Safe: a stuck state only takes claims of progress away. -/
  | stuckInRead
  /-- Raised by `operandAddress` (Operands.lean) for an operand outside 0..99, an address that does not exist (20_memory.md R38).
  Every meaning turns it into the fatal fault UnknownOpcode (R39, D7, log 9). Safe: no decoded instruction has such an operand. -/
  | noSuchAddress (a : Nat)
deriving DecidableEq, Repr

/-- The reasons of `Host.Outcome.refused`. No step answers with one; the host's entry points do. -/
inductive Refusal where
  /-- Raised by an arm of `exec` whose instruction has no meaning yet; there is none. Safe. -/
  | notModelled (mnemonic : String)
  /-- Raised by `load` after a run has started (45_host_interface.md R158, D9, log 11). Safe. -/
  | loadAfterRun
  /-- Raised by `load` after `load` has returned (R158, D9, log 11). Safe. -/
  | secondLoad
  /-- Raised by `launch` when no `load` has returned (R153, R158, D8, log 10). Safe. -/
  | runWithoutLoad
  /-- Raised by `launch` after `load` returned a length of 0 (R153, D8, log 10). Safe. -/
  | runOfEmptyProgram
  /-- Raised by `launch` after `load` returned ProgramTooLarge (R145, R153, D8, log 10). Safe. -/
  | runAfterProgramTooLarge
  /-- Raised by `launch` when `es` is not Idle (R158, D9, log 11). Safe. -/
  | secondRun
  /-- Raised by `hostDump` during a run (R157, D23, log 27). Safe. -/
  | dumpDuringRun
deriving DecidableEq, Repr

/-- The whole machine: the CORE's registers and memories (10_state.md R10 to R20), then what stands around it: its parameters, the
two collaborators' sides of the ports and the host's call of `load` (R21; log 1, log 17, log 18), and the counter of free values
(log 16). -/
structure State where
  /-- The accumulator (R10). -/
  acc : Int
  /-- The instruction pointer, 0..100 (R11). -/
  ip : Nat
  /-- The instruction register (R12). -/
  ir : Int
  /-- The latched opcode (R13). -/
  opc : Int
  /-- The latched operand (R14). -/
  opd : Int
  /-- The engine state (R16). -/
  es : EngineState
  /-- The fault-cause latch; `none` is the spec's `None` (R17, D5, log 7). -/
  fc : Option FaultKind
  /-- Program memory and data memory (R18, R19, R20). -/
  store : Store
  /-- The machine's parameters (00_scope.md R4). -/
  config : Config
  /-- How far `load` has come. -/
  loader : LoaderPhase
  /-- The candidates supplied and not yet consumed, the next one first. -/
  input : List Candidate
  /-- The output trace, the oldest event first. -/
  output : List Event
  /-- How many free values have been drawn. -/
  draws : Nat
deriving DecidableEq, Repr

/-- The machine right after reset, for any value of its parameters (70_reset_and_hazards.md R200, R201, R202). -/
def State.resetOf (c : Config) : State where
  acc := 0
  ip := 0
  ir := 0
  opc := 0
  opd := 0
  es := .idle
  fc := none
  store := c.initial
  config := c
  loader := .notCalled
  input := []
  output := []
  draws := 0

/-- The machine right after reset, with the spec's default parameters (00_scope.md R4). -/
def State.reset : State := State.resetOf { }

end Sys2Proof.Machine
end

