-- ==== Sys2Proof/Machine/Memory.lean ====
section
/-! DEFINITION. One memory, and the two configurations of program and data memory (10_state.md R18 to R20; 20_memory.md). -/

set_option autoImplicit false

namespace Sys2Proof.Machine

/-- What a cell that is not listed reads as: 0, the spec's default contents at reset (70_reset_and_hazards.md R202).
DESIGN CHOICE (D3, log 3); unsafe. -/
abbrev unlistedWord : Int := 0

/-- The Word at an address, in a list of cells at rising addresses. -/
def lookupCell : List (Nat × Int) → Nat → Int
  | [], _ => unlistedWord
  | (k, v) :: rest, a => if a < k then unlistedWord else if a = k then v else lookupCell rest a

/-- The list with the Word at an address replaced; a cell that would read as an unlisted one is not listed. -/
def insertCell : List (Nat × Int) → Nat → Int → List (Nat × Int)
  | [], a, v => if v = unlistedWord then [] else [(a, v)]
  | (k, w) :: rest, a, v =>
    if a < k then (if v = unlistedWord then (k, w) :: rest else (a, v) :: (k, w) :: rest)
    else if a = k then (if v = unlistedWord then rest else (a, v) :: rest)
    else (k, w) :: insertCell rest a v

/-- Reading one Word (20_memory.md R30, R31). -/
def readCell (m : Memory) (a : Nat) : Int := lookupCell m.cells a

/-- Writing one Word (20_memory.md R32, R33). -/
def writeCell (m : Memory) (a : Nat) (v : Int) : Memory := ⟨insertCell m.cells a v⟩

/-- The canonical form: addresses strictly rising and in 0..99, no cell that reads as an unlisted one. -/
abbrev Memory.wf (m : Memory) : Prop :=
  m.cells.Pairwise (fun x y => x.1 < y.1) ∧ ∀ c ∈ m.cells, inMemory c.1 ∧ c.2 ≠ unlistedWord

/-- Every cell holds a Word (10_state.md R18, R19). -/
abbrev Memory.wordsInRange (m : Memory) : Prop := ∀ c ∈ m.cells, inWord c.2

/-- All 100 Words of a memory, in the order of their addresses. -/
def allWords (m : Memory) : List Int := (List.range 100).map (readCell m)

/-- `PM` (10_state.md R18, R20). -/
def programOf : Store → Memory
  | .split pm _ => pm
  | .unified m => m

/-- `DM` (10_state.md R19, R20). -/
def dataOf : Store → Memory
  | .split _ dm => dm
  | .unified m => m

/-- `MemWrite_P` on the memories (20_memory.md R33). -/
def writeProgramOf (st : Store) (a : Nat) (v : Int) : Store :=
  match st with
  | .split pm dm => .split (writeCell pm a v) dm
  | .unified m => .unified (writeCell m a v)

/-- `MemWrite_D` on the memories (20_memory.md R32). -/
def writeDataOf (st : Store) (a : Nat) (v : Int) : Store :=
  match st with
  | .split pm dm => .split pm (writeCell dm a v)
  | .unified m => .unified (writeCell m a v)

/-- The memory regions in use, program memory first (45_host_interface.md R155). DESIGN CHOICE (D12, log 14) for the order; unsafe. -/
def regionsOf : Store → List Memory
  | .split pm dm => [pm, dm]
  | .unified m => [m]

/-- `MEMORY_CONFIG` is unified (10_state.md R20). -/
def isUnified : Store → Bool
  | .split _ _ => false
  | .unified _ => true

end Sys2Proof.Machine
end

