-- ==== Sys2Proof/Machine/Ops.lean ====
section
/-! DEFINITION. The named operations on the state: the four memory ports, the fetch and the latch, the two ports to the outside,
the advance, and fault termination. -/

set_option autoImplicit false

namespace Sys2Proof.Machine

/-- `MemRead_P(addr, 1)` (20_memory.md R30). -/
def State.programWord (s : State) (a : Nat) : Int := readCell (programOf s.store) a

/-- `MemRead_D(addr, 1)` (20_memory.md R31). -/
def State.dataWord (s : State) (a : Nat) : Int := readCell (dataOf s.store) a

/-- `MemWrite_P(addr, 1, v)` (20_memory.md R33); the loader's port. -/
def State.writeProgram (s : State) (a : Nat) (v : Int) : State := { s with store := writeProgramOf s.store a v }

/-- `MemWrite_D(addr, 1, v)` (20_memory.md R32). -/
def State.writeData (s : State) (a : Nat) (v : Int) : State := { s with store := writeDataOf s.store a v }

/-- "instruction pointer += 1" (40_cycle.md R76). -/
def State.advance (s : State) : State := { s with ip := s.ip + 1 }

/-- `acc <- v`. -/
def State.setAcc (s : State) (v : Int) : State := { s with acc := v }

/-- `ip <- target` (00_scope.md R7). -/
def State.jump (s : State) (target : Nat) : State := { s with ip := target }

/-- Fetch and decode into the latch (40_cycle.md R73, R74): `ir <- w; opc <- tdiv(ir, 100); opd <- tmod(ir, 100)`. -/
def State.latch (s : State) (w : Int) : State :=
  { s with ir := w, opc := (codecDecode w).1, opd := (codecDecode w).2 }

/-- A candidate is valid for READ exactly when it is an integer in the Word range (45_host_interface.md R148). -/
def validForRead : Candidate → Option Int
  | .value v => if inWord v then some v else none
  | .unparsable => none

/-- `In()` (45_host_interface.md R148): the first valid candidate and what is left after it; the candidates before it are consumed
and rejected. `none`: there is no valid candidate, and the transaction waits (41_io.md R91). -/
def takeInput : List Candidate → Option (Int × List Candidate)
  | [] => none
  | c :: cs =>
    match validForRead c with
    | some v => some (v, cs)
    | none => takeInput cs

/-- The machine inside a READ that is blocked at `ip` (40_cycle.md R78, 41_io.md R91): the latch holds the READ, `ip` its address, the
candidates that were there are consumed and rejected, and nothing else is changed. No step leads here and nothing can observe it: a
machine with the candidates still there and no step (`Fault.stuckInRead`) is the same machine (log 15). -/
def State.blockedInRead (s : State) : State := { s.latch (s.programWord s.ip) with input := [] }

/-- The output port takes one event (45_host_interface.md R150); it never blocks (D24, log 26). -/
def State.emit (s : State) (e : Event) : State := { s with output := s.output ++ [e] }

/-- `dump()` (45_host_interface.md R155, R157): a pure function of the registers and the memories. -/
def State.dump (s : State) : Report where
  acc := s.acc
  ip := s.ip
  ir := s.ir
  opc := s.opc
  opd := s.opd
  regions := (regionsOf s.store).map allWords

/-- Halt processing (40_cycle.md R77): a notice, then the report of the state the cycle left. For a normal end the order is
DESIGN CHOICE (D11, log 13); unsafe. -/
def State.haltProcessing (s : State) (n : Notice) : State := (s.emit (.notice n)).emit (.report s.dump)

/-- TAKING AN EXCEPTION: fault termination, `raise Fault(kind)` (60_exceptions.md R176). `es` and `fc` are written, then the notice
and the report go out; nothing else changes, no pc and no status is saved, and control goes nowhere. There is no return from it
(R180): only reset leaves the halted states. -/
def State.raiseFault (s : State) (k : FaultKind) : State :=
  State.haltProcessing { s with es := .haltedFault, fc := some k } .abnormal

/-- `halt_normal()` (44_control.md R134). -/
def State.haltNormal (s : State) : State := State.haltProcessing { s with es := .haltedNormal } .terminated

/-- The first parts of a cycle (40_cycle.md R71 to R75): bounds check, fetch, decode, and the choice of the handler. The answer is
an instruction to execute and the state with the latch written, or, where the cycle ends before any handler, the state it ends in. -/
def fetchDecode (s : State) : Except State (Instr × State) :=
  if s.ip < 100 then
    match decode (s.programWord s.ip) with
    | .ok i => .ok (i, s.latch (s.programWord s.ip))
    | .error _ => .error ((s.latch (s.programWord s.ip)).raiseFault .unknownOpcode)
  else .error (s.raiseFault .programBoundsExceeded)

/-- The state that runs the instruction Word `v` in its very next step: the Word stands where the fetch reads, and the sequencer
runs (log 22). The instruction pointer is kept where it names a cell and is 0, as run start makes it, where it names none. -/
def State.placeWord (s : State) (v : Int) : State :=
  let a := if s.ip < 100 then s.ip else 0
  { s.writeProgram a v with ip := a, es := .running, fc := none }

end Sys2Proof.Machine
end

