-- ==== Sys2Proof/Machine/Operands.lean ====
section
/-! DEFINITION. The one operand form: an absolute address (42_load_store.md R102; 30_encoding.md R58), of data memory for the
opcodes 10 to 34 and of program memory for the branches. -/

set_option autoImplicit false

namespace Sys2Proof.Machine

/-- The effective address is the operand itself; an operand outside 0..99 names no cell (20_memory.md R38, R39). -/
def operandAddress (a : Nat) : Except Fault Nat :=
  if inMemory a then .ok a else .error (.noSuchAddress a)

/-- Go on with the operand's address. The case of no such address cannot come out of the decoder (30_encoding.md R57); the spec
gives that forced arm the fatal fault UnknownOpcode. DESIGN CHOICE (D7, log 9); safe. -/
def withAddress (a : Nat) (s : State) (k : Nat → Host.Outcome State Fault Refusal) : Host.Outcome State Fault Refusal :=
  match operandAddress a with
  | .ok addr => k addr
  | .error _ => .next (s.raiseFault .unknownOpcode)

/-- Go on with the data Word `data[operand]` (00_scope.md R8). -/
def withData (a : Nat) (s : State) (k : Int → State) : Host.Outcome State Fault Refusal :=
  withAddress a s fun addr => .next (k (s.dataWord addr))

end Sys2Proof.Machine
end

