-- ==== Sys2Proof/Machine/Flags.lean ====
section
/-! DEFINITION. The machine has no flags (10_state.md R22). What other machines keep in flags is computed afresh here: the range
check of a result, and the two conditions that the branches test on the accumulator. -/

set_option autoImplicit false

namespace Sys2Proof.Machine

/-- Deliver the exact result of ADD, SUBTRACT or MULTIPLY, or raise ArithmeticOverflow before anything is written
(43_arithmetic.md R110, R116). -/
def deliverChecked (s : State) (r : Int) : State :=
  if inWord r then (s.setAcc r).advance else s.raiseFault .arithmeticOverflow

/-- Deliver a result that needs a divisor other than 0, or raise the fault (43_arithmetic.md R113, R114). There is no range check
(R119). -/
def deliverDivided (s : State) (d : Int) (k : FaultKind) (r : Int) : State :=
  if d = 0 then s.raiseFault k else (s.setAcc r).advance

/-- The test of BRANCHNEG: on the accumulator's present value (44_control.md R131). -/
def accNegative (s : State) : Bool := decide (s.acc < 0)

/-- The test of BRANCHZERO (44_control.md R132). -/
def accZero (s : State) : Bool := decide (s.acc = 0)

/-- Set `ip` to the operand where the condition holds, else advance (44_control.md R131, R132). -/
def branchIf (c : Bool) (a : Nat) (s : State) : Host.Outcome State Fault Refusal :=
  if c then withAddress a s fun addr => .next (s.jump addr) else .next s.advance

end Sys2Proof.Machine
end

