-- ==== Sys2Proof/Machine/Arithmetic.lean ====
section
/-! DEFINITION. ADD, SUBTRACT, DIVIDE, REMAINDER, MULTIPLY (43_arithmetic.md). The would-be result is exact, in the integers (R121). -/

set_option autoImplicit false

namespace Sys2Proof.Machine

/-- ADD (43_arithmetic.md R111). -/
def execAdd (a : Nat) (s : State) : Host.Outcome State Fault Refusal :=
  withData a s fun d => deliverChecked s (s.acc + d)

/-- SUBTRACT (43_arithmetic.md R112): the accumulator is the minuend. -/
def execSubtract (a : Nat) (s : State) : Host.Outcome State Fault Refusal :=
  withData a s fun d => deliverChecked s (s.acc - d)

/-- DIVIDE (43_arithmetic.md R113, R117): the quotient rounded toward zero. -/
def execDivide (a : Nat) (s : State) : Host.Outcome State Fault Refusal :=
  withData a s fun d => deliverDivided s d .divisionByZero (s.acc.tdiv d)

/-- REMAINDER (43_arithmetic.md R114, R118): the remainder of the truncating division. DESIGN CHOICE (the spec's decision D6,
log 8) where an operand is negative; unsafe there. -/
def execRemainder (a : Nat) (s : State) : Host.Outcome State Fault Refusal :=
  withData a s fun d => deliverDivided s d .remainderByZero (s.acc.tmod d)

/-- MULTIPLY (43_arithmetic.md R115). -/
def execMultiply (a : Nat) (s : State) : Host.Outcome State Fault Refusal :=
  withData a s fun d => deliverChecked s (s.acc * d)

end Sys2Proof.Machine
end

