-- ==== Sys2Proof/Machine/Control.lean ====
section
/-! DEFINITION. BRANCH, BRANCHNEG, BRANCHZERO, HALT (44_control.md). -/

set_option autoImplicit false

namespace Sys2Proof.Machine

/-- BRANCH (44_control.md R130). -/
def execBranch (a : Nat) (s : State) : Host.Outcome State Fault Refusal :=
  branchIf true a s

/-- BRANCHNEG (44_control.md R131). -/
def execBranchneg (a : Nat) (s : State) : Host.Outcome State Fault Refusal :=
  branchIf (accNegative s) a s

/-- BRANCHZERO (44_control.md R132). -/
def execBranchzero (a : Nat) (s : State) : Host.Outcome State Fault Refusal :=
  branchIf (accZero s) a s

/-- HALT (44_control.md R134); the operand is not used (30_encoding.md R58). -/
def execHalt (_a : Nat) (s : State) : Host.Outcome State Fault Refusal :=
  .next s.haltNormal

end Sys2Proof.Machine
end

