-- ==== Sys2Proof/Machine/InputOutput.lean ====
section
/-! DEFINITION. READ and WRITE (41_io.md). -/

set_option autoImplicit false

namespace Sys2Proof.Machine

/-- READ (41_io.md R90). Where the input holds no valid candidate, READ has no step and the machine is stuck (R91, D17, log 15). -/
def execRead (a : Nat) (s : State) : Host.Outcome State Fault Refusal :=
  withAddress a s fun addr =>
    match takeInput s.input with
    | some (v, rest) => .next (State.writeData { s with input := rest } addr v).advance
    | none => .fault .stuckInRead

/-- WRITE (41_io.md R92). -/
def execWrite (a : Nat) (s : State) : Host.Outcome State Fault Refusal :=
  withData a s fun v => (s.emit (.out v)).advance

end Sys2Proof.Machine
end

