-- ==== Sys2Proof/Machine/LoadStore.lean ====
section
/-! DEFINITION. LOAD and STORE (42_load_store.md). -/

set_option autoImplicit false

namespace Sys2Proof.Machine

/-- LOAD (42_load_store.md R100). -/
def execLoad (a : Nat) (s : State) : Host.Outcome State Fault Refusal :=
  withData a s fun v => (s.setAcc v).advance

/-- STORE (42_load_store.md R101). -/
def execStore (a : Nat) (s : State) : Host.Outcome State Fault Refusal :=
  withAddress a s fun addr => .next (s.writeData addr s.acc).advance

end Sys2Proof.Machine
end

