-- ==== Sys2Proof/Machine/Step.lean ====
section
/-! DEFINITION. The step: one whole cycle, taken as one atomic step (40_cycle.md R70, R71, R78). -/

set_option autoImplicit false

namespace Sys2Proof.Machine

/-- One step. A cycle runs when, and only when, `es == Running` (40_cycle.md R70); in the other engine states nothing changes.
DESIGN CHOICE (log 6): "no cycle runs" is a next state equal to the present one; unsafe only for claims that count steps. -/
def step (s : State) : Host.Outcome State Fault Refusal :=
  if s.es = .running then
    match fetchDecode s with
    | .ok (i, t) => exec i t
    | .error t => .next t
  else .next s

/-- The state whose next step fetches and runs the instruction with these bits (log 21, log 22). A pattern of bits that is no Word
cannot stand in memory and changes nothing. -/
def State.withFetchWord (s : State) (nbits w : Nat) : State :=
  match wordOfBits nbits w with
  | some v => s.placeWord v
  | none => s

end Sys2Proof.Machine
end

