-- ==== Sys2Proof/Machine/HostInterface.lean ====
section
/-! DEFINITION. The host's three entry points `load`, `run` and `dump`, the loader, the collaborators' moves and reset
(45_host_interface.md; 70_reset_and_hazards.md R200, R204). They happen between steps: `run` is here its start (`launch`) and its
outcome (`runOutcome`); the cycles between the two are `step`. -/

set_option autoImplicit false

namespace Sys2Proof.Machine

/-- The loader stops without another request (45_host_interface.md R145, first policy). -/
def stopsAtFull (p : LoaderFullPolicy) (la : Nat) : Bool := decide (p = .faultAfter100thWrite ∧ 100 ≤ la)

/-- The loader's loop (45_host_interface.md R146), from a load address, over the candidates that are there: how far it came, the
memories, and the candidates left. The pseudocode's `la == 100` is written `100 ≤ la`, which is the same for every load address
the loader can have. -/
def loadLoop (p : LoaderFullPolicy) (la : Nat) (st : Store) (cs : List Candidate) :
    LoaderPhase × Store × List Candidate :=
  if stopsAtFull p la then (.returned .programTooLarge, st, cs)
  else
    match cs with
    | [] => (.loading la, st, [])
    | .unparsable :: rest => loadLoop p la st rest
    | .value v :: rest =>
      if v = sentinel then (.returned (.ok la), st, rest)
      else if ¬ inWord v then loadLoop p la st rest
      else if 100 ≤ la then (.returned .programTooLarge, st, rest)
      else loadLoop p (la + 1) (writeProgramOf st la v) rest

/-- The loader at work from a load address (45_host_interface.md R141, R146): it writes program memory and consumes candidates; the
`ip` it leaves is a free value in 0..100 (10_state.md R11, R21, log 16). -/
def State.runLoader (s : State) (la : Nat) : State :=
  let (phase, st, cs) := loadLoop s.config.loaderFull la s.store s.input
  { s with loader := phase, store := st, input := cs, ip := Config.ipAfterLoad s.draws, draws := s.draws + 1 }

/-- `load(source)` (45_host_interface.md R140, R141, R158): once, while `es == Idle`. A call that waits for candidates (R149) goes
on from its load address when `load` is applied again after more have been supplied (log 19). -/
def load (s : State) : Host.Outcome State Fault Refusal :=
  if s.es ≠ .idle then .refused .loadAfterRun
  else
    match s.loader with
    | .notCalled => .next (s.runLoader 0)
    | .loading la => .next (s.runLoader la)
    | .returned _ => .refused .secondLoad

/-- Run start (45_host_interface.md R152): `ip <- 0; es <- Running`; nothing else changes (D20, log 20). -/
def State.start (s : State) : State := { s with ip := 0, es := .running }

/-- `run()` up to its first cycle (45_host_interface.md R152, R153): accepted exactly when `es == Idle` and `load` returned `Ok(n)`
with `n >= 1`; else refused, with no change (D8, D9, log 10, log 11). -/
def launch (s : State) : Host.Outcome State Fault Refusal :=
  if s.es ≠ .idle then .refused .secondRun
  else
    match s.loader with
    | .returned (.ok n) => if 1 ≤ n then .next s.start else .refused .runOfEmptyProgram
    | .returned .programTooLarge => .refused .runAfterProgramTooLarge
    | .notCalled => .refused .runWithoutLoad
    | .loading _ => .refused .runWithoutLoad

/-- What `run` returns (45_host_interface.md R154). -/
inductive ExecutionOutcome where
  | normal
  | fault
deriving DecidableEq, Repr

/-- The outcome of `run`; `none` while it has not returned (45_host_interface.md R154; 70_reset_and_hazards.md R209). -/
def runOutcome (s : State) : Option ExecutionOutcome :=
  match s.es with
  | .idle => none
  | .running => none
  | .haltedNormal => some .normal
  | .haltedFault => some .fault

/-- `dump()` as the host calls it: outside a run (45_host_interface.md R157, D23, log 27). -/
def hostDump (s : State) : Host.Outcome Report Fault Refusal :=
  if s.es = .running then .refused .dumpDuringRun else .next s.dump

/-- The input collaborator has more candidates to give (45_host_interface.md R147). -/
def State.supply (s : State) (cs : List Candidate) : State := { s with input := s.input ++ cs }

/-- Reset of a used machine: machine start again, with the same parameters (70_reset_and_hazards.md R200, R211; 60_exceptions.md
R180). The collaborators' lists start anew with it (log 29). DESIGN CHOICE (log 31): it applies in every engine state; the spec gives it
for first use and for re-use of a halted machine, and says nothing of a reset during a run or while a load waits; safe, but where such a reset would leave another state. -/
def State.restart (s : State) : State := State.resetOf s.config

/-- The spec's numbers for the fault kinds (60_exceptions.md R171, D5, log 7): for reference, and nothing depends on them. -/
def faultCode : Option FaultKind → Nat
  | none => 0
  | some .arithmeticOverflow => 1
  | some .divisionByZero => 2
  | some .remainderByZero => 3
  | some .unknownOpcode => 4
  | some .programBoundsExceeded => 5

/-- The explicit sign of a cell of the report (45_host_interface.md R156). -/
inductive ShownSign where
  | plus
  | minus
deriving DecidableEq, Repr

/-- A cell as the report shows it: its sign, and its magnitude. -/
structure ShownCell where
  sign : ShownSign
  magnitude : Nat
deriving DecidableEq, Repr

/-- "a non-negative Word with `+`, a negative Word with `-`" (45_host_interface.md R156). -/
def showCell (v : Int) : ShownCell := ⟨if v < 0 then .minus else .plus, v.natAbs⟩

/-- A region as the report shows it: 10 rows of 10 cells, row r and column c showing address 10*r + c (45_host_interface.md R156). -/
def reportGrid (region : List Int) : List (List ShownCell) :=
  (List.range 10).map fun r => (List.range 10).map fun c => showCell (region.getD (10 * r + c) unlistedWord)

end Sys2Proof.Machine
end

