-- ==== Sys2Proof/Safety.lean ====
section
/-! DEFINITION. What claims are stated in terms of: the invariant of the machine, the shape of its output, its ends, its one wait,
and the states it can reach. -/

set_option autoImplicit false

namespace Sys2Proof.Machine

/-- One memory is canonical and holds Words only. -/
abbrev Memory.good (m : Memory) : Prop := Memory.wf m ∧ Memory.wordsInRange m

/-- Every memory of a store is. -/
abbrev storeGood (st : Store) : Prop := ∀ m ∈ regionsOf st, Memory.good m

/-- Every memory of a store is canonical. -/
abbrev storeCanonical (st : Store) : Prop := ∀ m ∈ regionsOf st, Memory.wf m

/-- `st'` is `st` with one data Word stored (20_memory.md R32, R34): data cell `a` holds `v`, every other data cell is as before,
and program memory is as before where it is an array of its own (R42) and is the data memory where the two are one (10_state.md
R20, R43). -/
structure StoredAt (st st' : Store) (a : Nat) (v : Int) : Prop where
  shape : isUnified st' = isUnified st
  cell : readCell (dataOf st') a = v
  others : ∀ b, b ≠ a → readCell (dataOf st') b = readCell (dataOf st) b
  split : isUnified st = false → programOf st' = programOf st
  unified : isUnified st = true → programOf st' = dataOf st'

/-- The state that a handler starts from: the latch holds the fetched Word and its two fields (40_cycle.md R73, R74). -/
def State.fetched (s : State) : State :=
  { s with
    ir := s.programWord s.ip
    opc := (s.programWord s.ip).tdiv 100
    opd := (s.programWord s.ip).tmod 100 }

/-- The state after a fatal fault (60_exceptions.md R176): `es` and `fc` written, and two events on the output port, the notice and
the report that shows the registers and memories as they are. -/
def State.faulted (s : State) (k : FaultKind) : State :=
  { s with
    es := .haltedFault
    fc := some k
    output := s.output ++ [.notice .abnormal,
      .report ⟨s.acc, s.ip, s.ir, s.opc, s.opd, (regionsOf s.store).map allWords⟩] }

/-- Running `n` steps. -/
def runSteps : Nat → State → Host.Outcome State Fault Refusal
  | 0, s => .next s
  | n + 1, s =>
    match step s with
    | .next t => runSteps n t
    | .fault r => .fault r
    | .refused r => .refused r

/-- The load address and the program length are in 0..100 (45_host_interface.md R141, R145). -/
def loaderInRange : LoaderPhase → Bool
  | .notCalled => true
  | .loading la => decide (la ≤ 100)
  | .returned (.ok n) => decide (n ≤ 100)
  | .returned .programTooLarge => true

/-- The invariant of the machine (10_state.md R25): (1) the accumulator and every cell hold Words, and every memory is canonical;
(2) and (4) `0 <= ip <= 100`; (5) the latch is one decoded Word; (6) `fc != None` exactly when `es == HaltedFault`; and the
configuration is the one the machine was made with. -/
structure State.Inv (s : State) : Prop where
  accWord : inWord s.acc
  memory : storeGood s.store
  ipRange : s.ip ≤ 100
  irWord : inWord s.ir
  latch : (s.opc, s.opd) = codecDecode s.ir
  faultLatched : s.fc ≠ none ↔ s.es = .haltedFault
  loader : loaderInRange s.loader = true
  initial : storeGood s.config.initial
  shape : isUnified s.store = isUnified s.config.initial

/-- An event of a WRITE: a Word (45_host_interface.md R150). -/
def isOutOfWord : Event → Bool
  | .out v => decide (inWord v)
  | .notice _ => false
  | .report _ => false

/-- The output trace of one run (45_host_interface.md R151): nothing before it; the `Out` events of WRITE during it; and at its end
exactly one notice and exactly one report, which shows the final state. -/
def State.OutputOrder (s : State) : Prop :=
  match s.es with
  | .idle => s.output = []
  | .running => ∀ e ∈ s.output, isOutOfWord e = true
  | .haltedNormal => ∃ outs : List Event, (∀ e ∈ outs, isOutOfWord e = true) ∧
      s.output = outs ++ [.notice .terminated, .report s.dump]
  | .haltedFault => ∃ outs : List Event, (∀ e ∈ outs, isOutOfWord e = true) ∧
      s.output = outs ++ [.notice .abnormal, .report s.dump]

/-- The run has ended (70_reset_and_hazards.md R209). -/
def State.Ended (s : State) : Prop := s.es = .haltedNormal ∨ s.es = .haltedFault

/-- The run has ended as a correct program ends (60_exceptions.md R180): a safe run. -/
def State.EndedNormally (s : State) : Prop := s.es = .haltedNormal ∧ s.fc = none

/-- The CORE is inside a READ that waits (41_io.md R91): the fetched instruction is a READ and no valid candidate is there. -/
def State.WaitsInRead (s : State) : Prop :=
  s.es = .running ∧ s.ip < 100 ∧ (∃ a, decode (s.programWord s.ip) = .ok (.read a)) ∧ takeInput s.input = none

/-- The states a machine comes to: reset with any parameters whose memories hold Words, then any sequence of supplied candidates,
`load`, run start, steps and resets. That a reset may come in any engine state is the model's choice (log 31). -/
inductive Reachable : State → Prop where
  | reset (c : Config) : storeGood c.initial → Reachable (State.resetOf c)
  | restart (s : State) : Reachable s → Reachable s.restart
  | supply (s : State) (cs : List Candidate) : Reachable s → Reachable (s.supply cs)
  | load (s t : State) : Reachable s → Machine.load s = .next t → Reachable t
  | launch (s t : State) : Reachable s → Machine.launch s = .next t → Reachable t
  | step (s t : State) : Reachable s → Machine.step s = .next t → Reachable t

end Sys2Proof.Machine
end

