-- ==== Sys2Proof/Certificates/Slice0/Obligations.lean ====
section
/-! DEFINITION. The statements for the provers. Each docstring names the rule of spec/ it formalises, or says which clause is the
model's or the spec's own choice and names the log entry. -/

set_option autoImplicit false

open Sys2Proof Sys2Proof.Machine

/-! ## The codec (30_encoding.md) -/

/-- 30_encoding.md R52: the two fields of a Word, by division truncating toward zero; the operand of an instruction is the second
field as it stands; and the rule's examples. -/
def Obligations.CodecTruncatesTowardZero : Prop :=
  (∀ w : Int, inWord w →
    codecDecode w = (w.tdiv 100, w.tmod 100) ∧
    (0 ≤ w → codecDecode w = (w / 100, w % 100)) ∧
    (w ≤ 0 → codecDecode w = (-((-w) / 100), -((-w) % 100))) ∧
    (∀ i, decode w = .ok i → (i.operand : Int) = w.tmod 100)) ∧
  codecDecode 2007 = (20, 7) ∧ codecDecode 4300 = (43, 0) ∧ codecDecode 99 = (0, 99) ∧ codecDecode 0 = (0, 0) ∧
  codecDecode (-2007) = (-20, -7) ∧ codecDecode (-99) = (0, -99) ∧ codecDecode 9999 = (99, 99) ∧
  codecDecode (-9999) = (-99, -99)

/-- 30_encoding.md R54: decode of encode for every legal opcode and operand, encode of decode for every Word, decode is injective,
and the rule's counterexample for a negative operand. -/
def Obligations.CodecRoundTrip : Prop :=
  (∀ o ∈ legalOpcodes, ∀ a : Int, 0 ≤ a → a ≤ 99 → codecDecode (codecEncode o a) = (o, a)) ∧
  (∀ w : Int, inWord w → w.tdiv 100 * 100 + w.tmod 100 = w) ∧
  (∀ v w : Int, inWord v → inWord w → codecDecode v = codecDecode w → v = w) ∧
  codecEncode 20 (-7) = 1993 ∧ codecDecode 1993 = (19, 93)

/-- Decode and encode agree on instructions: for every well-formed instruction, with its operand at every value. -/
def Obligations.DecodeOfEncode : Prop :=
  ∀ i : Instr, i.WellFormed → decode (encode i) = .ok i

/-- 30_encoding.md R55: each instruction is selected by exactly the hundred Words of its opcode, and its operand is what is left. -/
def Obligations.WordsOfEachInstruction : Prop :=
  ∀ (w : Int) (i : Instr), inWord w →
    (decode w = .ok i ↔
      match i with
      | .read a => a ≤ 99 ∧ w = 1000 + a
      | .write a => a ≤ 99 ∧ w = 1100 + a
      | .load a => a ≤ 99 ∧ w = 2000 + a
      | .store a => a ≤ 99 ∧ w = 2100 + a
      | .add a => a ≤ 99 ∧ w = 3000 + a
      | .subtract a => a ≤ 99 ∧ w = 3100 + a
      | .divide a => a ≤ 99 ∧ w = 3200 + a
      | .remainder a => a ≤ 99 ∧ w = 3300 + a
      | .multiply a => a ≤ 99 ∧ w = 3400 + a
      | .branch a => a ≤ 99 ∧ w = 4000 + a
      | .branchneg a => a ≤ 99 ∧ w = 4100 + a
      | .branchzero a => a ≤ 99 ∧ w = 4200 + a
      | .halt a => a ≤ 99 ∧ w = 4300 + a)

/-- 30_encoding.md R56, its list of the illegal Words: those, and no others, are rejected, by the name of their opcode. -/
def Obligations.IllegalWordsAreRejected : Prop :=
  ∀ w : Int, inWord w →
    (decode w = .error (.unknownOpcode (w.tdiv 100) (w.tmod 100)) ↔
      w ≤ 999 ∨ (1200 ≤ w ∧ w ≤ 1999) ∨ (2200 ≤ w ∧ w ≤ 2999) ∨ (3500 ≤ w ∧ w ≤ 3999) ∨ 4400 ≤ w)

/-- 30_encoding.md R57: a legal opcode implies an operand in 0..99; a negative operand occurs only with an opcode that is zero or
negative and illegal; and all hundred operands of each legal opcode are valid instructions. -/
def Obligations.LegalOpcodeHasAddress : Prop :=
  ∀ w : Int, inWord w →
    (w.tdiv 100 ∈ legalOpcodes → 1000 ≤ w ∧ 0 ≤ w.tmod 100 ∧ w.tmod 100 ≤ 99) ∧
    (w.tmod 100 < 0 → w.tdiv 100 ≤ 0 ∧ w.tdiv 100 ∉ legalOpcodes) ∧
    (∀ o ∈ legalOpcodes, ∀ a : Nat, a ≤ 99 → ∃ i, decode (o * 100 + a) = .ok i ∧ i.operand = a)

/-- A sanity statement: Words written out from the opcode table (30_encoding.md R55) decode to what they stand for. -/
def Obligations.KnownWordsDecode : Prop :=
  decode 1007 = .ok (.read 7) ∧ decode 2107 = .ok (.store 7) ∧ decode 3499 = .ok (.multiply 99) ∧
  decode 4203 = .ok (.branchzero 3) ∧ decode 4300 = .ok (.halt 0)

/-! ## The cycle (40_cycle.md) -/

/-- 40_cycle.md R73, R74: a step runs the decoded instruction, from the state in which the latch holds the fetched Word and its two
fields and nothing else is changed; and where no instruction decodes, the latch shows the offending Word in the end. -/
def Obligations.StepRunsDecodedInstruction : Prop :=
  ∀ s : State, s.es = .running → s.ip < 100 →
    (∀ i, decode (s.programWord s.ip) = .ok i →
      step s = exec i { s with
        ir := s.programWord s.ip
        opc := (s.programWord s.ip).tdiv 100
        opd := (s.programWord s.ip).tmod 100 }) ∧
    (∀ e, decode (s.programWord s.ip) = .error e →
      ∃ t, step s = .next t ∧ t.ip = s.ip ∧ t.ir = s.programWord s.ip ∧
        t.opc = (s.programWord s.ip).tdiv 100 ∧ t.opd = (s.programWord s.ip).tmod 100)

/-- 60_exceptions.md R175 with 30_encoding.md R56: an illegal Word, once latched, ends the run. The latch `fc` is the spec's own
decision D5 (log 7). -/
def Obligations.UnknownOpcodeEndsRun : Prop :=
  ∀ s : State, s.es = .running → s.ip < 100 → (s.programWord s.ip).tdiv 100 ∉ legalOpcodes →
    step s = .next (s.fetched.faulted .unknownOpcode)

/-- 40_cycle.md R72 and 60_exceptions.md R177: past the last address nothing is fetched, and the run ends with the latch as it was.
The latch `fc` is the spec's own decision D5 (log 7). -/
def Obligations.RunningOffTheEndFaults : Prop :=
  ∀ s : State, s.es = .running → 100 ≤ s.ip → step s = .next (s.faulted .programBoundsExceeded)

/-- 40_cycle.md R70: outside a run no cycle runs and nothing changes, and no step makes the machine run. That a step which does
nothing is a next state is the model's choice (log 6). -/
def Obligations.NoCycleOutsideARun : Prop :=
  ∀ s : State,
    (s.es ≠ .running → step s = .next s) ∧ (∀ t, step s = .next t → t.es = .running → s.es = .running)

/-- 60_exceptions.md R180: an ended machine never moves again, whatever the number of steps. The spec's decision D9 (log 6, log 11). -/
def Obligations.EndedMachineNeverMoves : Prop :=
  ∀ (n : Nat) (s : State), s.Ended → runSteps n s = .next s

/-- 40_cycle.md R76: where `ip` is at the end of a cycle, and which handlers end the run. A READ that is blocked has
no step, so it ends no cycle (R91). -/
def Obligations.IpMovesByTheTable : Prop :=
  ∀ s t : State, s.es = .running → step s = .next t →
    (t.es = .running ∨ (t.ip = s.ip ∧ (t.es = .haltedFault ∨ t.es = .haltedNormal))) ∧
    (t.es = .haltedNormal ↔ s.ip < 100 ∧ ∃ a, decode (s.programWord s.ip) = .ok (.halt a)) ∧
    t.ip =
      if s.ip < 100 then
        match decode (s.programWord s.ip) with
        | .ok (.read _) => s.ip + 1
        | .ok (.write _) => s.ip + 1
        | .ok (.load _) => s.ip + 1
        | .ok (.store _) => s.ip + 1
        | .ok (.add _) => if t.es = .haltedFault then s.ip else s.ip + 1
        | .ok (.subtract _) => if t.es = .haltedFault then s.ip else s.ip + 1
        | .ok (.divide _) => if t.es = .haltedFault then s.ip else s.ip + 1
        | .ok (.remainder _) => if t.es = .haltedFault then s.ip else s.ip + 1
        | .ok (.multiply _) => if t.es = .haltedFault then s.ip else s.ip + 1
        | .ok (.branch a) => a
        | .ok (.branchneg a) => if s.acc < 0 then a else s.ip + 1
        | .ok (.branchzero a) => if s.acc = 0 then a else s.ip + 1
        | .ok (.halt _) => s.ip
        | .error _ => s.ip
      else s.ip

/-- 60_exceptions.md R171, R178: when a cycle faults, and with which kind. The latch `fc` is the spec's own decision D5 (log 7). -/
def Obligations.WhenACycleFaults : Prop :=
  ∀ s t : State, s.es = .running → s.fc = none → step s = .next t →
    t.fc =
      (if s.ip < 100 then
        match decode (s.programWord s.ip) with
        | .ok (.add a) => if inWord (s.acc + s.dataWord a) then none else some .arithmeticOverflow
        | .ok (.subtract a) => if inWord (s.acc - s.dataWord a) then none else some .arithmeticOverflow
        | .ok (.multiply a) => if inWord (s.acc * s.dataWord a) then none else some .arithmeticOverflow
        | .ok (.divide a) => if s.dataWord a = 0 then some .divisionByZero else none
        | .ok (.remainder a) => if s.dataWord a = 0 then some .remainderByZero else none
        | .ok _ => none
        | .error _ => some .unknownOpcode
      else some .programBoundsExceeded) ∧
    (t.fc ≠ none ↔ t.es = .haltedFault)

/-- 60_exceptions.md R176, R179: a fault changes nothing but `es`, `fc` and, where the cycle fetched, the latch. The latch `fc` is
the spec's own decision D5 (log 7). -/
def Obligations.FaultChangesNothingElse : Prop :=
  ∀ s t : State, s.es = .running → step s = .next t → t.es = .haltedFault →
    (100 ≤ s.ip ∧ t = s.faulted .programBoundsExceeded) ∨
    (s.ip < 100 ∧ ∃ k, k ≠ .programBoundsExceeded ∧ t = s.fetched.faulted k)

/-- 70_reset_and_hazards.md R209: a run ends normally only by executing HALT, one of the Words 4300..4399, and then always. -/
def Obligations.NormalEndOnlyByHalt : Prop :=
  ∀ s t : State, s.es = .running → step s = .next t →
    (t.es = .haltedNormal ↔ s.ip < 100 ∧ 4300 ≤ s.programWord s.ip ∧ s.programWord s.ip ≤ 4399)

/-! ## Input and output (41_io.md) -/

/-- 41_io.md R90: READ consumes candidates up to the first valid one, stores that one and advances; nothing else changes. The
candidates before it are unparsable or out of range (the sentinel -99999 among them). -/
def Obligations.ReadStoresFirstValidCandidate : Prop :=
  ∀ (a : Nat) (s : State) (bad rest : List Candidate) (v : Int), a ≤ 99 → storeCanonical s.store →
    (∀ c ∈ bad, c = .unparsable ∨ ∃ x, c = .value x ∧ (x < -9999 ∨ 9999 < x)) →
    -9999 ≤ v → v ≤ 9999 → s.input = bad ++ .value v :: rest →
    decode (1000 + a) = .ok (.read a) ∧
    ∃ st, exec (.read a) s = .next { s with store := st, input := rest, ip := s.ip + 1 } ∧ StoredAt s.store st a v

/-- 41_io.md R91: where the input holds no valid candidate, READ has no step. This is the spec's own decision D17; that "no step" is
written as the reason `stuckInRead` is the model's choice (log 15). -/
def Obligations.ReadWaitsForInput : Prop :=
  ∀ (a : Nat) (s : State), a ≤ 99 →
    (∀ c ∈ s.input, c = .unparsable ∨ ∃ x, c = .value x ∧ (x < -9999 ∨ 9999 < x)) →
    exec (.read a) s = .fault .stuckInRead

/-- 41_io.md R91, 40_cycle.md R78, 70_reset_and_hazards.md R210: a machine blocked in READ has no step, and its run has not ended; more
invalid candidates leave it blocked; its registers are those of R78, the latch holding the READ; and with a valid candidate the READ
completes, from the blocked machine as from the one that has the rejected candidates still before it. The spec's own decision D17;
the form of the wait is the model's choice (log 15). -/
def Obligations.WaitingReadNeverProceeds : Prop :=
  ∀ s : State, s.WaitsInRead →
    (∀ n, runSteps (n + 1) s = .fault .stuckInRead) ∧ ¬ s.Ended ∧
    (∀ cs : List Candidate, (∀ c ∈ cs, c = .unparsable ∨ ∃ x, c = .value x ∧ (x < -9999 ∨ 9999 < x)) →
      (s.supply cs).WaitsInRead ∧ step (s.supply cs) = .fault .stuckInRead) ∧
    (s.blockedInRead = { s.fetched with input := [] } ∧ s.blockedInRead.opc = 10 ∧ s.blockedInRead.WaitsInRead) ∧
    (∀ (v : Int) (rest : List Candidate), inWord v → storeCanonical s.store →
      ∃ (u : State) (a : Nat), decode (s.programWord s.ip) = .ok (.read a) ∧
        step (s.supply (.value v :: rest)) = .next u ∧ step (s.blockedInRead.supply (.value v :: rest)) = .next u ∧
        u.ip = s.ip + 1 ∧ u.input = rest ∧ u.es = .running ∧ StoredAt s.store u.store a v)

/-- 41_io.md R92: WRITE hands the data Word to the output port and advances; nothing else changes. -/
def Obligations.WriteEmitsDataWord : Prop :=
  ∀ (a : Nat) (s : State), a ≤ 99 →
    decode (1100 + a) = .ok (.write a) ∧
    exec (.write a) s = .next { s with output := s.output ++ [.out (s.dataWord a)], ip := s.ip + 1 }

/-- 41_io.md R93: during a run only READ consumes candidates; and an event goes out only by WRITE, one Word, or by the end of the
run, one notice and one report. -/
def Obligations.PortsReachedOnlyByReadAndWrite : Prop :=
  ∀ (i : Instr) (s t : State), s.es = .running → exec i s = .next t →
    ((∀ a, i ≠ .read a) → t.input = s.input) ∧
    ((∃ a v, i = .write a ∧ t.es = .running ∧ t.output = s.output ++ [.out v]) ∨
      ((∀ a, i ≠ .write a) ∧ t.es = .running ∧ t.output = s.output) ∨
      (t.es = .haltedNormal ∧ ∃ r, t.output = s.output ++ [.notice .terminated, .report r]) ∨
      (t.es = .haltedFault ∧ ∃ r, t.output = s.output ++ [.notice .abnormal, .report r]))

/-! ## Load and store (42_load_store.md) -/

/-- 42_load_store.md R100: LOAD copies the whole data Word and advances; nothing else changes. -/
def Obligations.LoadCopiesDataWord : Prop :=
  ∀ (a : Nat) (s : State), a ≤ 99 →
    decode (2000 + a) = .ok (.load a) ∧
    exec (.load a) s = .next { s with acc := s.dataWord a, ip := s.ip + 1 }

/-- 42_load_store.md R101: STORE writes the accumulator to the data cell at the operand and advances; every other cell is as before,
in both configurations; nothing else changes. -/
def Obligations.StoreWritesAccumulator : Prop :=
  ∀ (a : Nat) (s : State), a ≤ 99 → storeCanonical s.store →
    decode (2100 + a) = .ok (.store a) ∧
    ∃ st, exec (.store a) s = .next { s with store := st, ip := s.ip + 1 } ∧ StoredAt s.store st a s.acc

/-! ## Arithmetic (43_arithmetic.md) -/

/-- 43_arithmetic.md R116: the result of ADD, SUBTRACT, MULTIPLY is the exact integer result if that is a Word; otherwise there is
none, and the run ends with accumulator, `ip` and memory as before. -/
def Obligations.OverflowLaw : Prop :=
  ∀ (a : Nat) (s : State) (i : Instr) (r : Int), a ≤ 99 →
    ((i = .add a ∧ r = s.acc + s.dataWord a) ∨ (i = .subtract a ∧ r = s.acc - s.dataWord a) ∨
      (i = .multiply a ∧ r = s.acc * s.dataWord a)) →
    (-9999 ≤ r → r ≤ 9999 → exec i s = .next { s with acc := r, ip := s.ip + 1 }) ∧
    (r < -9999 ∨ 9999 < r → ∃ t, exec i s = .next t ∧ t.es = .haltedFault ∧ t.acc = s.acc ∧ t.ip = s.ip ∧ t.store = s.store)

/-- 43_arithmetic.md R111, R120: ADD, with its fault. The latch `fc` is the spec's own decision D5 (log 7). -/
def Obligations.AddIsExactOrFaults : Prop :=
  ∀ (a : Nat) (s : State), a ≤ 99 →
    decode (3000 + a) = .ok (.add a) ∧
    exec (.add a) s = .next (if -9999 ≤ s.acc + s.dataWord a ∧ s.acc + s.dataWord a ≤ 9999
      then { s with acc := s.acc + s.dataWord a, ip := s.ip + 1 } else s.faulted .arithmeticOverflow)

/-- 43_arithmetic.md R112, R120: SUBTRACT, the accumulator being the minuend, with its fault. The latch `fc` is the spec's own
decision D5 (log 7). -/
def Obligations.SubtractIsExactOrFaults : Prop :=
  ∀ (a : Nat) (s : State), a ≤ 99 →
    decode (3100 + a) = .ok (.subtract a) ∧
    exec (.subtract a) s = .next (if -9999 ≤ s.acc - s.dataWord a ∧ s.acc - s.dataWord a ≤ 9999
      then { s with acc := s.acc - s.dataWord a, ip := s.ip + 1 } else s.faulted .arithmeticOverflow)

/-- 43_arithmetic.md R115, R120: MULTIPLY, on the full product, with its fault. The latch `fc` is the spec's own decision D5
(log 7). -/
def Obligations.MultiplyIsExactOrFaults : Prop :=
  ∀ (a : Nat) (s : State), a ≤ 99 →
    decode (3400 + a) = .ok (.multiply a) ∧
    exec (.multiply a) s = .next (if -9999 ≤ s.acc * s.dataWord a ∧ s.acc * s.dataWord a ≤ 9999
      then { s with acc := s.acc * s.dataWord a, ip := s.ip + 1 } else s.faulted .arithmeticOverflow)

/-- 43_arithmetic.md R113, R117, R120: DIVIDE delivers the quotient rounded toward zero, at every sign combination; a zero divisor
faults whatever the dividend. The latch `fc` is the spec's own decision D5 (log 7). -/
def Obligations.DivideTruncatesOrFaults : Prop :=
  ∀ (a : Nat) (s : State), a ≤ 99 →
    decode (3200 + a) = .ok (.divide a) ∧
    (s.dataWord a = 0 → exec (.divide a) s = .next (s.faulted .divisionByZero)) ∧
    (s.dataWord a ≠ 0 → ∃ q : Int, exec (.divide a) s = .next { s with acc := q, ip := s.ip + 1 } ∧
      (0 ≤ s.acc → 0 < s.dataWord a → q = s.acc / s.dataWord a) ∧
      (s.acc ≤ 0 → 0 < s.dataWord a → q = -(-s.acc / s.dataWord a)) ∧
      (0 ≤ s.acc → s.dataWord a < 0 → q = -(s.acc / -s.dataWord a)) ∧
      (s.acc ≤ 0 → s.dataWord a < 0 → q = -s.acc / -s.dataWord a) ∧
      |q| ≤ |s.acc|)

/-- 43_arithmetic.md R114, R118, R120: REMAINDER delivers what DIVIDE leaves, with the sign of the dividend; a zero divisor faults.
The sign is the spec's own decision D6 (log 8), and the latch `fc` its decision D5 (log 7). -/
def Obligations.RemainderFollowsDividendOrFaults : Prop :=
  ∀ (a : Nat) (s : State), a ≤ 99 →
    decode (3300 + a) = .ok (.remainder a) ∧
    (s.dataWord a = 0 → exec (.remainder a) s = .next (s.faulted .remainderByZero)) ∧
    (s.dataWord a ≠ 0 → ∃ r : Int, exec (.remainder a) s = .next { s with acc := r, ip := s.ip + 1 } ∧
      s.acc = s.acc.tdiv (s.dataWord a) * s.dataWord a + r ∧
      (0 ≤ s.acc → 0 ≤ r) ∧ (s.acc ≤ 0 → r ≤ 0) ∧ |r| < |s.dataWord a| ∧ |r| ≤ |s.acc|)

/-- 43_arithmetic.md R119: DIVIDE and REMAINDER by a divisor other than 0 complete with a Word, so neither can overflow; and
-9999 divided by -1 is 9999. -/
def Obligations.QuotientsAndRemaindersAreWords : Prop :=
  ∀ (a : Nat) (s : State), a ≤ 99 → inWord s.acc → inWord (s.dataWord a) → s.dataWord a ≠ 0 →
    (∃ t, exec (.divide a) s = .next t ∧ t.es = s.es ∧ inWord t.acc ∧ |t.acc| ≤ |s.acc| ∧
      (s.acc = -9999 → s.dataWord a = -1 → t.acc = 9999)) ∧
    (∃ t, exec (.remainder a) s = .next t ∧ t.es = s.es ∧ inWord t.acc ∧ |t.acc| < |s.dataWord a|)

/-! ## Control (44_control.md) -/

/-- 44_control.md R130: BRANCH sets `ip` to its operand; nothing else changes. -/
def Obligations.BranchSetsIp : Prop :=
  ∀ (a : Nat) (s : State), a ≤ 99 →
    decode (4000 + a) = .ok (.branch a) ∧ exec (.branch a) s = .next { s with ip := a }

/-- 44_control.md R131: BRANCHNEG branches where the accumulator is below 0 and advances otherwise; nothing else changes. -/
def Obligations.BranchnegTestsAccumulator : Prop :=
  ∀ (a : Nat) (s : State), a ≤ 99 →
    decode (4100 + a) = .ok (.branchneg a) ∧
    exec (.branchneg a) s = .next { s with ip := if s.acc < 0 then a else s.ip + 1 }

/-- 44_control.md R132: BRANCHZERO branches where the accumulator is 0 and advances otherwise; nothing else changes. -/
def Obligations.BranchzeroTestsAccumulator : Prop :=
  ∀ (a : Nat) (s : State), a ≤ 99 →
    decode (4200 + a) = .ok (.branchzero a) ∧
    exec (.branchzero a) s = .next { s with ip := if s.acc = 0 then a else s.ip + 1 }

/-- 44_control.md R134: HALT ends the run normally, at its own address, with a notice and a report. The order of the two is the
spec's own decision D11 (log 13). -/
def Obligations.HaltEndsTheRun : Prop :=
  ∀ (a : Nat) (s : State), a ≤ 99 →
    decode (4300 + a) = .ok (.halt a) ∧
    exec (.halt a) s = .next { s with
      es := .haltedNormal
      output := s.output ++ [.notice .terminated,
        .report ⟨s.acc, s.ip, s.ir, s.opc, s.opd, (regionsOf s.store).map allWords⟩] }

/-! ## Frames over all instructions -/

/-- The spec's own decision D7 (20_memory.md R39, log 9), on operands that no Word decodes to: an operand outside 0..99 that would
be used as an address raises UnknownOpcode, and reaches no cell. -/
def Obligations.OperandOutsideMemoryFaults : Prop :=
  ∀ (i : Instr) (s : State), 100 ≤ i.operand → (∀ a, i ≠ .halt a) →
    ((∃ a, i = .branchneg a) → s.acc < 0) → ((∃ a, i = .branchzero a) → s.acc = 0) →
    exec i s = .next (s.faulted .unknownOpcode)

/-- The frame of the registers (10_state.md R10, R12 to R14, R34): no instruction writes the latch, the parameters, the loader's
progress or the counter of free values; only LOAD and the five arithmetic instructions write the accumulator; only READ and STORE
write memory. -/
def Obligations.InstructionsWriteOnlyTheirOwn : Prop :=
  ∀ (i : Instr) (s t : State), exec i s = .next t →
    t.ir = s.ir ∧ t.opc = s.opc ∧ t.opd = s.opd ∧ t.config = s.config ∧ t.loader = s.loader ∧ t.draws = s.draws ∧
    ((∀ a, i ≠ .load a ∧ i ≠ .add a ∧ i ≠ .subtract a ∧ i ≠ .divide a ∧ i ≠ .remainder a ∧ i ≠ .multiply a) → t.acc = s.acc) ∧
    ((∀ a, i ≠ .read a ∧ i ≠ .store a) → t.store = s.store)

/-- What a program cannot see (10_state.md R17, R21, R24; 93_implementation_defined.md U14): the output trace, the fault latch, the
loader's progress, the parameters and the counter of free values have no influence on registers, memories, engine state and input. -/
def Obligations.BookkeepingIsNeverSeen : Prop :=
  ∀ (s t : State) (o : List Event) (f : Option FaultKind) (l : LoaderPhase) (c : Config) (d : Nat), step s = .next t →
    ∃ u, step { s with output := o, fc := f, loader := l, config := c, draws := d } = .next u ∧
      u.acc = t.acc ∧ u.ip = t.ip ∧ u.ir = t.ir ∧ u.opc = t.opc ∧ u.opd = t.opd ∧ u.es = t.es ∧ u.store = t.store ∧
      u.input = t.input

/-! ## Memory (20_memory.md) -/

/-- 20_memory.md R32, R33: the two write ports: the cell holds the Word, no other cell of that memory changes, in the split
configuration the other memory is as before and in the unified one it is the same array; and every memory stays canonical. The
canonical form is the model's (log 4). -/
def Obligations.WritePortsChangeOneCell : Prop :=
  ∀ (s : State) (a : Nat) (v : Int), a ≤ 99 → storeCanonical s.store →
    StoredAt s.store (s.writeData a v).store a v ∧ storeCanonical (s.writeData a v).store ∧
    storeCanonical (s.writeProgram a v).store ∧
    (s.writeProgram a v).programWord a = v ∧
    (∀ b, b ≠ a → (s.writeProgram a v).programWord b = s.programWord b) ∧
    (isUnified s.store = false → ∀ b, (s.writeProgram a v).dataWord b = s.dataWord b) ∧
    (isUnified s.store = true → ∀ b, (s.writeProgram a v).dataWord b = (s.writeProgram a v).programWord b)

/-- The canonical form of a memory is one (log 4): two canonical memories that read alike at every address are equal. -/
def Obligations.CanonicalMemoriesAreEqual : Prop :=
  ∀ m n : Memory, Memory.wf m → Memory.wf n → (∀ a, a ≤ 99 → readCell m a = readCell n a) → m = n

/-- 20_memory.md R42: in the split configuration program memory is constant during a run of any length. -/
def Obligations.SplitProgramMemoryIsConstant : Prop :=
  ∀ (n : Nat) (s t : State), isUnified s.store = false → runSteps n s = .next t →
    isUnified t.store = false ∧ programOf t.store = programOf s.store ∧ ∀ a, t.programWord a = s.programWord a

/-- 20_memory.md R43, 70_reset_and_hazards.md R207: in the unified configuration a STORE is seen by the very next fetch, and does not
change the cycle that makes it; where the Word stored is a READ that is then blocked, the latch of the blocked machine shows it. The
spec's own decision D15 (log 24). -/
def Obligations.UnifiedStoreIsFetchedNext : Prop :=
  ∀ (s : State) (a : Nat), s.es = .running → isUnified s.store = true → storeCanonical s.store → s.ip ≤ 98 →
    decode (s.programWord s.ip) = .ok (.store a) →
    ∃ t, step s = .next t ∧ t.ir = s.programWord s.ip ∧ t.ip = s.ip + 1 ∧ t.programWord a = s.acc ∧
      (∀ b, b ≠ a → t.programWord b = s.programWord b) ∧
      (a = s.ip + 1 → (¬ t.WaitsInRead → ∃ u, step t = .next u ∧ u.ir = s.acc) ∧ (t.WaitsInRead → t.blockedInRead.ir = s.acc))

/-- 70_reset_and_hazards.md R206: no hazard between a READ and the LOAD of the same cell that follows it. -/
def Obligations.LoadSeesTheWordJustRead : Prop :=
  ∀ (s : State) (a : Nat) (v : Int) (rest : List Candidate), s.es = .running → storeCanonical s.store → s.ip ≤ 98 →
    (isUnified s.store = true → a ≠ s.ip + 1) → inWord v → s.input = .value v :: rest →
    decode (s.programWord s.ip) = .ok (.read a) → decode (s.programWord (s.ip + 1)) = .ok (.load a) →
    ∃ t u, step s = .next t ∧ step t = .next u ∧ t.acc = s.acc ∧ u.acc = v ∧ u.ip = s.ip + 2

/-! ## Reset, invariants, reachable states -/

/-- 70_reset_and_hazards.md R200: the five registers are 0 at reset, whatever the machine's parameters; and the same reset serves
for re-use, from whatever state the machine is in. The last clause says that the whole reset state comes back, so also that the
collaborators' lists and the counter of free values start anew, which R200 does not say and which is the model's choice (log 29), and
it says so of a machine in any engine state, where R200 speaks of first use and of a halted one: the model's choice too (log 31). -/
def Obligations.ResetZeroesTheRegisters : Prop :=
  ∀ c : Config, (State.resetOf c).acc = 0 ∧ (State.resetOf c).ip = 0 ∧ (State.resetOf c).ir = 0 ∧ (State.resetOf c).opc = 0 ∧
    (State.resetOf c).opd = 0 ∧ State.reset = State.resetOf { } ∧ ∀ s : State, s.config = c → s.restart = State.resetOf c

/-- The invariant holds at reset (the memory's contents at reset are the spec's default, D3, log 3). -/
def Obligations.ResetMeetsTheInvariant : Prop := State.reset.Inv

/-- 10_state.md R25: every step keeps the invariant, from every state that meets it. Its part (6), on `fc`, is about the spec's own
latch (D5, log 7), and the canonical form is the model's (log 4). -/
def Obligations.StepKeepsTheInvariant : Prop :=
  ∀ s t : State, s.Inv → step s = .next t → t.Inv

/-- 45_host_interface.md R151: every step keeps the shape of the output trace: WRITE's Words during a run, then exactly one notice
and one report of the final state. The order at a normal end is the spec's own decision D11 (log 13). -/
def Obligations.StepKeepsTheOutputOrder : Prop :=
  ∀ s t : State, s.Inv → s.OutputOrder → step s = .next t → t.OutputOrder

/-- 10_state.md R25, 45_host_interface.md R151: every state the machine comes to, by reset with any parameters, supplied input,
`load`, run start, steps and resets, meets the invariant and the output order (log 3, log 7, log 13). That a reset may come in any
engine state is the model's choice (log 31). -/
def Obligations.ReachableStatesAreGood : Prop :=
  ∀ s : State, Reachable s → s.Inv ∧ s.OutputOrder

/-- 44_control.md R134, 70_reset_and_hazards.md R209: a machine that ended normally shows the HALT that ended it. The states it ranges
over include those after a reset in any engine state (log 31). -/
def Obligations.NormalEndShowsItsHalt : Prop :=
  ∀ s : State, Reachable s → s.es = .haltedNormal →
    s.fc = none ∧ s.opc = 43 ∧ 4300 ≤ s.ir ∧ s.ir ≤ 4399 ∧ s.ip < 100 ∧ s.programWord s.ip = s.ir ∧
    runOutcome s = some .normal

/-! ## The host interface (45_host_interface.md) -/

/-- 45_host_interface.md R142, R143, R144, R146: `load` writes the valid candidates before the sentinel at ascending addresses from
0, skips the invalid ones, writes nothing else, does not write the sentinel, and returns their number; of the registers it may leave
`ip` anywhere in 0..100 and changes no other; an empty program is not run. How long a program may be follows the parameter of the
spec's own reading D10 (log 12). -/
def Obligations.LoadWritesTheProgram : Prop :=
  ∀ (s : State) (cs rest : List Candidate) (ws : List Int),
    s.es = .idle → s.loader = .notCalled → storeCanonical s.store →
    s.input = cs ++ .value (-99999) :: rest → (∀ c ∈ cs, c ≠ .value (-99999)) →
    ws = cs.filterMap (fun c =>
      match c with
      | .value v => if -9999 ≤ v ∧ v ≤ 9999 then some v else none
      | .unparsable => none) →
    (ws.length ≤ 99 ∨ (ws.length = 100 ∧ s.config.loaderFull = .faultOn101stWord)) →
    ∃ t, load s = .next t ∧ t.loader = .returned (.ok ws.length) ∧ t.input = rest ∧ t.output = s.output ∧
      t.ip ≤ 100 ∧ t.acc = s.acc ∧ t.ir = s.ir ∧ t.opc = s.opc ∧ t.opd = s.opd ∧ t.es = .idle ∧ t.fc = s.fc ∧
      isUnified t.store = isUnified s.store ∧
      (∀ k v, ws[k]? = some v → t.programWord k = v) ∧
      (∀ k, ws.length ≤ k → t.programWord k = s.programWord k) ∧
      (isUnified s.store = false → dataOf t.store = dataOf s.store) ∧
      (isUnified s.store = true → ∀ k, t.dataWord k = t.programWord k) ∧
      (ws = [] → ∃ r, launch t = .refused r)

/-- 45_host_interface.md R145: when memory is full. Under the first policy the load faults with the 100th Word, without another
request; under the second with a 101st Word, which is not written; what was written remains, and the run is refused. The policies
are the spec's own reading D10 (log 12). -/
def Obligations.LoadStopsWhenMemoryIsFull : Prop :=
  ∀ (s : State) (cs rest : List Candidate) (ws : List Int) (v : Int),
    s.es = .idle → s.loader = .notCalled → storeCanonical s.store → inWord v →
    s.input = cs ++ .value v :: rest → (∀ c ∈ cs, c ≠ .value (-99999)) →
    ws = cs.filterMap (fun c =>
      match c with
      | .value v => if -9999 ≤ v ∧ v ≤ 9999 then some v else none
      | .unparsable => none) →
    ws.length = (match s.config.loaderFull with
      | .faultAfter100thWrite => 99
      | .faultOn101stWord => 100) →
    ∃ t, load s = .next t ∧ t.loader = .returned .programTooLarge ∧ t.input = rest ∧ t.es = .idle ∧ t.output = s.output ∧
      (∀ k w, (ws ++ [v])[k]? = some w → k < 100 → t.programWord k = w) ∧
      (∀ k, 100 ≤ k → t.programWord k = s.programWord k) ∧
      launch t = .refused .runAfterProgramTooLarge

/-- 45_host_interface.md R149: a load that waits goes on, when more candidates come, to what it would have done with all of them at
once. That the wait is a state is the model's choice (log 19). -/
def Obligations.WaitingLoadGoesOn : Prop :=
  ∀ (s t : State) (la : Nat) (more : List Candidate), load s = .next t → t.loader = .loading la →
    ∃ u v, load (t.supply more) = .next u ∧ load (s.supply more) = .next v ∧
      u.store = v.store ∧ u.loader = v.loader ∧ u.input = v.input ∧ u.es = v.es ∧ u.acc = v.acc

/-- 45_host_interface.md R152, R153: `run` is accepted exactly when the machine is Idle and the load returned a length of at least
1; it then sets `ip` and `es` and nothing else; otherwise it is refused. The spec's own decisions D8, D20 (log 10, log 20). -/
def Obligations.RunGuard : Prop :=
  ∀ s : State,
    (∀ n, s.es = .idle → s.loader = .returned (.ok n) → 1 ≤ n → launch s = .next { s with ip := 0, es := .running }) ∧
    (∀ t, launch s = .next t → s.es = .idle ∧ ∃ n, 1 ≤ n ∧ s.loader = .returned (.ok n)) ∧
    (∀ f, launch s ≠ .fault f)

/-- 45_host_interface.md R154: `run` returns when, and only when, the run has ended, with the outcome of its end. -/
def Obligations.RunReturnsItsOutcome : Prop :=
  ∀ s : State,
    (runOutcome s = some .normal ↔ s.es = .haltedNormal) ∧ (runOutcome s = some .fault ↔ s.es = .haltedFault) ∧
    (runOutcome s = none ↔ ¬ s.Ended)

/-- 45_host_interface.md R157, R158: the calls that are refused, each by its name. The spec's own decisions D9, D23 (log 11,
log 27). -/
def Obligations.RefusedCalls : Prop :=
  ∀ s : State,
    (s.es ≠ .idle → load s = .refused .loadAfterRun ∧ launch s = .refused .secondRun) ∧
    (∀ r, s.es = .idle → s.loader = .returned r → load s = .refused .secondLoad) ∧
    (s.es = .idle → s.loader = .notCalled → launch s = .refused .runWithoutLoad) ∧
    (s.es = .idle → s.loader = .returned .programTooLarge → launch s = .refused .runAfterProgramTooLarge) ∧
    (s.es = .running → hostDump s = .refused .dumpDuringRun) ∧
    (s.es ≠ .running → hostDump s = .next s.dump)

/-- 45_host_interface.md R155: the report is the tuple of the five registers and of every memory region in use. The order of the
regions is the spec's own decision D12 (log 14). -/
def Obligations.ReportHoldsTheWholeMachine : Prop :=
  ∀ s : State,
    s.dump.acc = s.acc ∧ s.dump.ip = s.ip ∧ s.dump.ir = s.ir ∧ s.dump.opc = s.opc ∧ s.dump.opd = s.opd ∧
    (isUnified s.store = false → ∃ p d, s.dump.regions = [p, d] ∧ p.length = 100 ∧ d.length = 100 ∧
      ∀ a, a ≤ 99 → p[a]? = some (s.programWord a) ∧ d[a]? = some (s.dataWord a)) ∧
    (isUnified s.store = true → ∃ p, s.dump.regions = [p] ∧ p.length = 100 ∧
      ∀ a, a ≤ 99 → p[a]? = some (s.programWord a) ∧ p[a]? = some (s.dataWord a))

/-- 45_host_interface.md R156: 10 rows of 10 cells; the cell of address a stands in row a / 10 and column a mod 10, with its
explicit sign. -/
def Obligations.ReportGridShowsEveryCell : Prop :=
  ∀ m : Memory,
    (reportGrid (allWords m)).length = 10 ∧ (∀ row ∈ reportGrid (allWords m), row.length = 10) ∧
    ∀ a, a ≤ 99 → ∃ row cell, (reportGrid (allWords m))[a / 10]? = some row ∧ row[a % 10]? = some cell ∧
      (cell.sign = .plus ↔ 0 ≤ readCell m a) ∧ (cell.sign = .minus ↔ readCell m a < 0) ∧
      (cell.magnitude : Int) = |readCell m a|

/-! ## Where the machine has no step -/

/-- 45_host_interface.md R149 and 60_exceptions.md R189, for a run: a machine has no step exactly when it is blocked in a READ; in
every other state, running or not, it has one. That "no step" is written as the reason `stuckInRead`, and that a step outside a run is
one that changes nothing, are the model's choices (log 15, log 6). -/
def Obligations.OnlyABlockedReadHasNoStep : Prop :=
  ∀ s : State, (step s = .fault .stuckInRead ↔ s.WaitsInRead) ∧ ((∃ t, step s = .next t) ↔ ¬ s.WaitsInRead)
end

