-- ==== Sys2Proof/Laws/Codec.lean ====
section
/-! SUPPORT. The laws of the codec: the two decimal fields, and the opcode map. -/

set_option autoImplicit false

namespace Sys2Proof

theorem codecDecode_of_nonneg {w : Int} (h : 0 ≤ w) : codecDecode w = (w / 100, w % 100) := by
  simp [codecDecode, Int.tdiv_eq_ediv_of_nonneg h, Int.tmod_eq_emod_of_nonneg h]

theorem codecDecode_of_neg {w : Int} (h : w < 0) : codecDecode w = (-((-w) / 100), -((-w) % 100)) := by
  have e : w = -(-w) := by omega
  have h' : 0 ≤ -w := by omega
  rw [codecDecode, e, Int.neg_tdiv, Int.neg_tmod, Int.tdiv_eq_ediv_of_nonneg h', Int.tmod_eq_emod_of_nonneg h']
  simp

/-- The opcode map is one to one on the thirteen opcodes, and an instruction keeps the operand it was made with. -/
theorem instrOfOpcode_eq_some {o : Int} {a : Nat} {i : Instr} :
    instrOfOpcode o a = some i ↔ i.opcode = o ∧ i.operand = a := by
  constructor
  · intro h
    unfold instrOfOpcode at h
    split at h <;> first
      | (cases h; exact ⟨rfl, rfl⟩)
      | cases h
  · rintro ⟨rfl, rfl⟩
    cases i <;> rfl

theorem decode_eq_ok {w : Int} {i : Instr} :
    decode w = .ok i ↔ i.opcode = (codecDecode w).1 ∧ i.operand = (codecDecode w).2.toNat := by
  rw [← instrOfOpcode_eq_some, decode]
  cases instrOfOpcode (codecDecode w).1 (codecDecode w).2.toNat <;> simp

/-- A legal opcode, as ranges. -/
theorem mem_legalOpcodes {o : Int} :
    o ∈ legalOpcodes ↔ o = 10 ∨ o = 11 ∨ o = 20 ∨ o = 21 ∨ (30 ≤ o ∧ o ≤ 34) ∨ (40 ≤ o ∧ o ≤ 43) := by
  simp only [legalOpcodes, List.mem_cons, List.not_mem_nil, or_false]; omega

theorem opcode_mem_legalOpcodes (i : Instr) : i.opcode ∈ legalOpcodes := by
  cases i <;> simp [legalOpcodes, Instr.opcode]

/-- The opcode map is defined exactly on the legal opcodes. -/
theorem instrOfOpcode_eq_none {o : Int} {a : Nat} : instrOfOpcode o a = none ↔ o ∉ legalOpcodes := by
  constructor
  · intro h ho
    simp only [legalOpcodes, List.mem_cons, List.not_mem_nil, or_false] at ho
    rcases ho with rfl | rfl | rfl | rfl | rfl | rfl | rfl | rfl | rfl | rfl | rfl | rfl | rfl <;> cases h
  · intro h
    cases hi : instrOfOpcode o a with
    | none => rfl
    | some i => exact absurd ((instrOfOpcode_eq_some.1 hi).1 ▸ opcode_mem_legalOpcodes i) h

/-- The two fields of a Word, by its sign. -/
theorem codecDecode_cases (w : Int) :
    (0 ≤ w ∧ codecDecode w = (w / 100, w % 100)) ∨ (w < 0 ∧ codecDecode w = (-((-w) / 100), -((-w) % 100))) := by
  by_cases h : 0 ≤ w
  · exact .inl ⟨h, codecDecode_of_nonneg h⟩
  · exact .inr ⟨by omega, codecDecode_of_neg (by omega)⟩

theorem opcode_range (i : Instr) : 10 ≤ i.opcode ∧ i.opcode ≤ 43 := by
  cases i <;> simp [Instr.opcode]

end Sys2Proof
end

