-- ==== Sys2Proof/Laws/State.lean ====
section
/-! SUPPORT. One lemma per field of State and per update of it, each true by unfolding, so that no proof unfolds a record update. -/

set_option autoImplicit false

namespace Sys2Proof.Machine

variable (s : State)

@[simp] theorem State.advance_acc : s.advance.acc = s.acc := rfl
@[simp] theorem State.advance_ip : s.advance.ip = s.ip + 1 := rfl
@[simp] theorem State.advance_ir : s.advance.ir = s.ir := rfl
@[simp] theorem State.advance_opc : s.advance.opc = s.opc := rfl
@[simp] theorem State.advance_opd : s.advance.opd = s.opd := rfl
@[simp] theorem State.advance_es : s.advance.es = s.es := rfl
@[simp] theorem State.advance_fc : s.advance.fc = s.fc := rfl
@[simp] theorem State.advance_store : s.advance.store = s.store := rfl
@[simp] theorem State.advance_config : s.advance.config = s.config := rfl
@[simp] theorem State.advance_loader : s.advance.loader = s.loader := rfl
@[simp] theorem State.advance_input : s.advance.input = s.input := rfl
@[simp] theorem State.advance_output : s.advance.output = s.output := rfl
@[simp] theorem State.advance_draws : s.advance.draws = s.draws := rfl

@[simp] theorem State.setAcc_acc (v : Int) : (s.setAcc v).acc = v := rfl
@[simp] theorem State.setAcc_ip (v : Int) : (s.setAcc v).ip = s.ip := rfl
@[simp] theorem State.setAcc_ir (v : Int) : (s.setAcc v).ir = s.ir := rfl
@[simp] theorem State.setAcc_opc (v : Int) : (s.setAcc v).opc = s.opc := rfl
@[simp] theorem State.setAcc_opd (v : Int) : (s.setAcc v).opd = s.opd := rfl
@[simp] theorem State.setAcc_es (v : Int) : (s.setAcc v).es = s.es := rfl
@[simp] theorem State.setAcc_fc (v : Int) : (s.setAcc v).fc = s.fc := rfl
@[simp] theorem State.setAcc_store (v : Int) : (s.setAcc v).store = s.store := rfl
@[simp] theorem State.setAcc_config (v : Int) : (s.setAcc v).config = s.config := rfl
@[simp] theorem State.setAcc_loader (v : Int) : (s.setAcc v).loader = s.loader := rfl
@[simp] theorem State.setAcc_input (v : Int) : (s.setAcc v).input = s.input := rfl
@[simp] theorem State.setAcc_output (v : Int) : (s.setAcc v).output = s.output := rfl
@[simp] theorem State.setAcc_draws (v : Int) : (s.setAcc v).draws = s.draws := rfl

@[simp] theorem State.jump_acc (a : Nat) : (s.jump a).acc = s.acc := rfl
@[simp] theorem State.jump_ip (a : Nat) : (s.jump a).ip = a := rfl
@[simp] theorem State.jump_ir (a : Nat) : (s.jump a).ir = s.ir := rfl
@[simp] theorem State.jump_opc (a : Nat) : (s.jump a).opc = s.opc := rfl
@[simp] theorem State.jump_opd (a : Nat) : (s.jump a).opd = s.opd := rfl
@[simp] theorem State.jump_es (a : Nat) : (s.jump a).es = s.es := rfl
@[simp] theorem State.jump_fc (a : Nat) : (s.jump a).fc = s.fc := rfl
@[simp] theorem State.jump_store (a : Nat) : (s.jump a).store = s.store := rfl
@[simp] theorem State.jump_config (a : Nat) : (s.jump a).config = s.config := rfl
@[simp] theorem State.jump_loader (a : Nat) : (s.jump a).loader = s.loader := rfl
@[simp] theorem State.jump_input (a : Nat) : (s.jump a).input = s.input := rfl
@[simp] theorem State.jump_output (a : Nat) : (s.jump a).output = s.output := rfl
@[simp] theorem State.jump_draws (a : Nat) : (s.jump a).draws = s.draws := rfl

@[simp] theorem State.latch_acc (w : Int) : (s.latch w).acc = s.acc := rfl
@[simp] theorem State.latch_ip (w : Int) : (s.latch w).ip = s.ip := rfl
@[simp] theorem State.latch_ir (w : Int) : (s.latch w).ir = w := rfl
@[simp] theorem State.latch_opc (w : Int) : (s.latch w).opc = w.tdiv 100 := rfl
@[simp] theorem State.latch_opd (w : Int) : (s.latch w).opd = w.tmod 100 := rfl
@[simp] theorem State.latch_es (w : Int) : (s.latch w).es = s.es := rfl
@[simp] theorem State.latch_fc (w : Int) : (s.latch w).fc = s.fc := rfl
@[simp] theorem State.latch_store (w : Int) : (s.latch w).store = s.store := rfl
@[simp] theorem State.latch_config (w : Int) : (s.latch w).config = s.config := rfl
@[simp] theorem State.latch_loader (w : Int) : (s.latch w).loader = s.loader := rfl
@[simp] theorem State.latch_input (w : Int) : (s.latch w).input = s.input := rfl
@[simp] theorem State.latch_output (w : Int) : (s.latch w).output = s.output := rfl
@[simp] theorem State.latch_draws (w : Int) : (s.latch w).draws = s.draws := rfl

@[simp] theorem State.writeData_acc (a : Nat) (v : Int) : (s.writeData a v).acc = s.acc := rfl
@[simp] theorem State.writeData_ip (a : Nat) (v : Int) : (s.writeData a v).ip = s.ip := rfl
@[simp] theorem State.writeData_ir (a : Nat) (v : Int) : (s.writeData a v).ir = s.ir := rfl
@[simp] theorem State.writeData_opc (a : Nat) (v : Int) : (s.writeData a v).opc = s.opc := rfl
@[simp] theorem State.writeData_opd (a : Nat) (v : Int) : (s.writeData a v).opd = s.opd := rfl
@[simp] theorem State.writeData_es (a : Nat) (v : Int) : (s.writeData a v).es = s.es := rfl
@[simp] theorem State.writeData_fc (a : Nat) (v : Int) : (s.writeData a v).fc = s.fc := rfl
@[simp] theorem State.writeData_store (a : Nat) (v : Int) : (s.writeData a v).store = writeDataOf s.store a v := rfl
@[simp] theorem State.writeData_config (a : Nat) (v : Int) : (s.writeData a v).config = s.config := rfl
@[simp] theorem State.writeData_loader (a : Nat) (v : Int) : (s.writeData a v).loader = s.loader := rfl
@[simp] theorem State.writeData_input (a : Nat) (v : Int) : (s.writeData a v).input = s.input := rfl
@[simp] theorem State.writeData_output (a : Nat) (v : Int) : (s.writeData a v).output = s.output := rfl
@[simp] theorem State.writeData_draws (a : Nat) (v : Int) : (s.writeData a v).draws = s.draws := rfl

@[simp] theorem State.writeProgram_acc (a : Nat) (v : Int) : (s.writeProgram a v).acc = s.acc := rfl
@[simp] theorem State.writeProgram_ip (a : Nat) (v : Int) : (s.writeProgram a v).ip = s.ip := rfl
@[simp] theorem State.writeProgram_ir (a : Nat) (v : Int) : (s.writeProgram a v).ir = s.ir := rfl
@[simp] theorem State.writeProgram_opc (a : Nat) (v : Int) : (s.writeProgram a v).opc = s.opc := rfl
@[simp] theorem State.writeProgram_opd (a : Nat) (v : Int) : (s.writeProgram a v).opd = s.opd := rfl
@[simp] theorem State.writeProgram_es (a : Nat) (v : Int) : (s.writeProgram a v).es = s.es := rfl
@[simp] theorem State.writeProgram_fc (a : Nat) (v : Int) : (s.writeProgram a v).fc = s.fc := rfl
@[simp] theorem State.writeProgram_store (a : Nat) (v : Int) : (s.writeProgram a v).store = writeProgramOf s.store a v := rfl
@[simp] theorem State.writeProgram_config (a : Nat) (v : Int) : (s.writeProgram a v).config = s.config := rfl
@[simp] theorem State.writeProgram_loader (a : Nat) (v : Int) : (s.writeProgram a v).loader = s.loader := rfl
@[simp] theorem State.writeProgram_input (a : Nat) (v : Int) : (s.writeProgram a v).input = s.input := rfl
@[simp] theorem State.writeProgram_output (a : Nat) (v : Int) : (s.writeProgram a v).output = s.output := rfl
@[simp] theorem State.writeProgram_draws (a : Nat) (v : Int) : (s.writeProgram a v).draws = s.draws := rfl

@[simp] theorem State.emit_acc (e : Event) : (s.emit e).acc = s.acc := rfl
@[simp] theorem State.emit_ip (e : Event) : (s.emit e).ip = s.ip := rfl
@[simp] theorem State.emit_ir (e : Event) : (s.emit e).ir = s.ir := rfl
@[simp] theorem State.emit_opc (e : Event) : (s.emit e).opc = s.opc := rfl
@[simp] theorem State.emit_opd (e : Event) : (s.emit e).opd = s.opd := rfl
@[simp] theorem State.emit_es (e : Event) : (s.emit e).es = s.es := rfl
@[simp] theorem State.emit_fc (e : Event) : (s.emit e).fc = s.fc := rfl
@[simp] theorem State.emit_store (e : Event) : (s.emit e).store = s.store := rfl
@[simp] theorem State.emit_config (e : Event) : (s.emit e).config = s.config := rfl
@[simp] theorem State.emit_loader (e : Event) : (s.emit e).loader = s.loader := rfl
@[simp] theorem State.emit_input (e : Event) : (s.emit e).input = s.input := rfl
@[simp] theorem State.emit_output (e : Event) : (s.emit e).output = s.output ++ [e] := rfl
@[simp] theorem State.emit_draws (e : Event) : (s.emit e).draws = s.draws := rfl

@[simp] theorem State.haltProcessing_acc (n : Notice) : (s.haltProcessing n).acc = s.acc := rfl
@[simp] theorem State.haltProcessing_ip (n : Notice) : (s.haltProcessing n).ip = s.ip := rfl
@[simp] theorem State.haltProcessing_ir (n : Notice) : (s.haltProcessing n).ir = s.ir := rfl
@[simp] theorem State.haltProcessing_opc (n : Notice) : (s.haltProcessing n).opc = s.opc := rfl
@[simp] theorem State.haltProcessing_opd (n : Notice) : (s.haltProcessing n).opd = s.opd := rfl
@[simp] theorem State.haltProcessing_es (n : Notice) : (s.haltProcessing n).es = s.es := rfl
@[simp] theorem State.haltProcessing_fc (n : Notice) : (s.haltProcessing n).fc = s.fc := rfl
@[simp] theorem State.haltProcessing_store (n : Notice) : (s.haltProcessing n).store = s.store := rfl
@[simp] theorem State.haltProcessing_config (n : Notice) : (s.haltProcessing n).config = s.config := rfl
@[simp] theorem State.haltProcessing_loader (n : Notice) : (s.haltProcessing n).loader = s.loader := rfl
@[simp] theorem State.haltProcessing_input (n : Notice) : (s.haltProcessing n).input = s.input := rfl
@[simp] theorem State.haltProcessing_output (n : Notice) : (s.haltProcessing n).output = s.output ++ [.notice n] ++ [.report s.dump] := rfl
@[simp] theorem State.haltProcessing_draws (n : Notice) : (s.haltProcessing n).draws = s.draws := rfl

@[simp] theorem State.raiseFault_acc (k : FaultKind) : (s.raiseFault k).acc = s.acc := rfl
@[simp] theorem State.raiseFault_ip (k : FaultKind) : (s.raiseFault k).ip = s.ip := rfl
@[simp] theorem State.raiseFault_ir (k : FaultKind) : (s.raiseFault k).ir = s.ir := rfl
@[simp] theorem State.raiseFault_opc (k : FaultKind) : (s.raiseFault k).opc = s.opc := rfl
@[simp] theorem State.raiseFault_opd (k : FaultKind) : (s.raiseFault k).opd = s.opd := rfl
@[simp] theorem State.raiseFault_es (k : FaultKind) : (s.raiseFault k).es = .haltedFault := rfl
@[simp] theorem State.raiseFault_fc (k : FaultKind) : (s.raiseFault k).fc = some k := rfl
@[simp] theorem State.raiseFault_store (k : FaultKind) : (s.raiseFault k).store = s.store := rfl
@[simp] theorem State.raiseFault_config (k : FaultKind) : (s.raiseFault k).config = s.config := rfl
@[simp] theorem State.raiseFault_loader (k : FaultKind) : (s.raiseFault k).loader = s.loader := rfl
@[simp] theorem State.raiseFault_input (k : FaultKind) : (s.raiseFault k).input = s.input := rfl
@[simp] theorem State.raiseFault_output (k : FaultKind) : (s.raiseFault k).output = s.output ++ [.notice .abnormal] ++ [.report s.dump] := rfl
@[simp] theorem State.raiseFault_draws (k : FaultKind) : (s.raiseFault k).draws = s.draws := rfl

@[simp] theorem State.haltNormal_acc : s.haltNormal.acc = s.acc := rfl
@[simp] theorem State.haltNormal_ip : s.haltNormal.ip = s.ip := rfl
@[simp] theorem State.haltNormal_ir : s.haltNormal.ir = s.ir := rfl
@[simp] theorem State.haltNormal_opc : s.haltNormal.opc = s.opc := rfl
@[simp] theorem State.haltNormal_opd : s.haltNormal.opd = s.opd := rfl
@[simp] theorem State.haltNormal_es : s.haltNormal.es = .haltedNormal := rfl
@[simp] theorem State.haltNormal_fc : s.haltNormal.fc = s.fc := rfl
@[simp] theorem State.haltNormal_store : s.haltNormal.store = s.store := rfl
@[simp] theorem State.haltNormal_config : s.haltNormal.config = s.config := rfl
@[simp] theorem State.haltNormal_loader : s.haltNormal.loader = s.loader := rfl
@[simp] theorem State.haltNormal_input : s.haltNormal.input = s.input := rfl
@[simp] theorem State.haltNormal_output : s.haltNormal.output = s.output ++ [.notice .terminated] ++ [.report s.dump] := rfl
@[simp] theorem State.haltNormal_draws : s.haltNormal.draws = s.draws := rfl

@[simp] theorem State.start_acc : s.start.acc = s.acc := rfl
@[simp] theorem State.start_ip : s.start.ip = 0 := rfl
@[simp] theorem State.start_ir : s.start.ir = s.ir := rfl
@[simp] theorem State.start_opc : s.start.opc = s.opc := rfl
@[simp] theorem State.start_opd : s.start.opd = s.opd := rfl
@[simp] theorem State.start_es : s.start.es = .running := rfl
@[simp] theorem State.start_fc : s.start.fc = s.fc := rfl
@[simp] theorem State.start_store : s.start.store = s.store := rfl
@[simp] theorem State.start_config : s.start.config = s.config := rfl
@[simp] theorem State.start_loader : s.start.loader = s.loader := rfl
@[simp] theorem State.start_input : s.start.input = s.input := rfl
@[simp] theorem State.start_output : s.start.output = s.output := rfl
@[simp] theorem State.start_draws : s.start.draws = s.draws := rfl

@[simp] theorem State.supply_acc (cs : List Candidate) : (s.supply cs).acc = s.acc := rfl
@[simp] theorem State.supply_ip (cs : List Candidate) : (s.supply cs).ip = s.ip := rfl
@[simp] theorem State.supply_ir (cs : List Candidate) : (s.supply cs).ir = s.ir := rfl
@[simp] theorem State.supply_opc (cs : List Candidate) : (s.supply cs).opc = s.opc := rfl
@[simp] theorem State.supply_opd (cs : List Candidate) : (s.supply cs).opd = s.opd := rfl
@[simp] theorem State.supply_es (cs : List Candidate) : (s.supply cs).es = s.es := rfl
@[simp] theorem State.supply_fc (cs : List Candidate) : (s.supply cs).fc = s.fc := rfl
@[simp] theorem State.supply_store (cs : List Candidate) : (s.supply cs).store = s.store := rfl
@[simp] theorem State.supply_config (cs : List Candidate) : (s.supply cs).config = s.config := rfl
@[simp] theorem State.supply_loader (cs : List Candidate) : (s.supply cs).loader = s.loader := rfl
@[simp] theorem State.supply_input (cs : List Candidate) : (s.supply cs).input = s.input ++ cs := rfl
@[simp] theorem State.supply_output (cs : List Candidate) : (s.supply cs).output = s.output := rfl
@[simp] theorem State.supply_draws (cs : List Candidate) : (s.supply cs).draws = s.draws := rfl

@[simp] theorem State.blockedInRead_acc : s.blockedInRead.acc = s.acc := rfl
@[simp] theorem State.blockedInRead_ip : s.blockedInRead.ip = s.ip := rfl
@[simp] theorem State.blockedInRead_ir : s.blockedInRead.ir = s.programWord s.ip := rfl
@[simp] theorem State.blockedInRead_opc : s.blockedInRead.opc = (s.programWord s.ip).tdiv 100 := rfl
@[simp] theorem State.blockedInRead_opd : s.blockedInRead.opd = (s.programWord s.ip).tmod 100 := rfl
@[simp] theorem State.blockedInRead_es : s.blockedInRead.es = s.es := rfl
@[simp] theorem State.blockedInRead_fc : s.blockedInRead.fc = s.fc := rfl
@[simp] theorem State.blockedInRead_store : s.blockedInRead.store = s.store := rfl
@[simp] theorem State.blockedInRead_config : s.blockedInRead.config = s.config := rfl
@[simp] theorem State.blockedInRead_loader : s.blockedInRead.loader = s.loader := rfl
@[simp] theorem State.blockedInRead_input : s.blockedInRead.input = [] := rfl
@[simp] theorem State.blockedInRead_output : s.blockedInRead.output = s.output := rfl
@[simp] theorem State.blockedInRead_draws : s.blockedInRead.draws = s.draws := rfl
@[simp] theorem State.blockedInRead_programWord (x : Nat) : s.blockedInRead.programWord x = s.programWord x := rfl
@[simp] theorem State.blockedInRead_dataWord (x : Nat) : s.blockedInRead.dataWord x = s.dataWord x := rfl

@[simp] theorem State.emit_dump (e : Event) : (s.emit e).dump = s.dump := rfl
@[simp] theorem State.emit_programWord (e : Event) (x : Nat) : (s.emit e).programWord x = s.programWord x := rfl
@[simp] theorem State.emit_dataWord (e : Event) (x : Nat) : (s.emit e).dataWord x = s.dataWord x := rfl
@[simp] theorem State.supply_dump (cs : List Candidate) : (s.supply cs).dump = s.dump := rfl
@[simp] theorem State.supply_programWord (cs : List Candidate) (x : Nat) : (s.supply cs).programWord x = s.programWord x := rfl
@[simp] theorem State.supply_dataWord (cs : List Candidate) (x : Nat) : (s.supply cs).dataWord x = s.dataWord x := rfl
@[simp] theorem State.advance_programWord (x : Nat) : s.advance.programWord x = s.programWord x := rfl
@[simp] theorem State.advance_dataWord (x : Nat) : s.advance.dataWord x = s.dataWord x := rfl
@[simp] theorem State.setAcc_programWord (v : Int) (x : Nat) : (s.setAcc v).programWord x = s.programWord x := rfl
@[simp] theorem State.setAcc_dataWord (v : Int) (x : Nat) : (s.setAcc v).dataWord x = s.dataWord x := rfl
@[simp] theorem State.jump_programWord (b : Nat) (x : Nat) : (s.jump b).programWord x = s.programWord x := rfl
@[simp] theorem State.jump_dataWord (b : Nat) (x : Nat) : (s.jump b).dataWord x = s.dataWord x := rfl
@[simp] theorem State.latch_programWord (w : Int) (x : Nat) : (s.latch w).programWord x = s.programWord x := rfl
@[simp] theorem State.latch_dataWord (w : Int) (x : Nat) : (s.latch w).dataWord x = s.dataWord x := rfl
@[simp] theorem State.raiseFault_programWord (k : FaultKind) (x : Nat) : (s.raiseFault k).programWord x = s.programWord x := rfl
@[simp] theorem State.raiseFault_dataWord (k : FaultKind) (x : Nat) : (s.raiseFault k).dataWord x = s.dataWord x := rfl
@[simp] theorem State.haltNormal_programWord (x : Nat) : s.haltNormal.programWord x = s.programWord x := rfl
@[simp] theorem State.haltNormal_dataWord (x : Nat) : s.haltNormal.dataWord x = s.dataWord x := rfl
@[simp] theorem State.start_programWord (x : Nat) : s.start.programWord x = s.programWord x := rfl
@[simp] theorem State.start_dataWord (x : Nat) : s.start.dataWord x = s.dataWord x := rfl
@[simp] theorem State.raiseFault_dump (k : FaultKind) : (s.raiseFault k).dump = s.dump := rfl
@[simp] theorem State.haltNormal_dump : s.haltNormal.dump = s.dump := rfl

/-- Fault termination, as one record. -/
theorem State.raiseFault_eq_faulted (k : FaultKind) : s.raiseFault k = s.faulted k := by
  simp [State.raiseFault, State.faulted, State.haltProcessing, State.emit, State.dump]

theorem State.latch_eq_fetched : s.latch (s.programWord s.ip) = s.fetched := rfl

@[simp] theorem runSteps_zero : runSteps 0 s = .next s := rfl

theorem runSteps_succ_of_next {t : State} (h : step s = .next t) (n : Nat) : runSteps (n + 1) s = runSteps n t := by
  rw [runSteps, h]

/-- Everything a run of steps that answers a next state can be: its first step answers one. -/
theorem runSteps_succ_eq_next {n : Nat} {t : State} (h : runSteps (n + 1) s = .next t) :
    ∃ u, step s = .next u ∧ runSteps n u = .next t := by
  rw [runSteps] at h
  split at h
  · exact ⟨_, ‹_›, h⟩
  · cases h
  · cases h

end Sys2Proof.Machine
end

