-- ==== Sys2Proof/Laws/Memory.lean ====
section
/-! SUPPORT. The laws of one memory and of a store: read after write, the canonical form, the Word range. -/

set_option autoImplicit false

namespace Sys2Proof.Machine

/-- Rising addresses, as a property of the list of cells. -/
abbrev risingCells (l : List (Nat × Int)) : Prop := l.Pairwise (fun x y => x.1 < y.1)

theorem lookupCell_of_all_greater {l : List (Nat × Int)} {a : Nat} (h : ∀ c ∈ l, a < c.1) : lookupCell l a = unlistedWord := by
  cases l with
  | nil => rfl
  | cons c rest => simp [lookupCell, h c (by simp)]

theorem mem_insertCell {l : List (Nat × Int)} {a : Nat} {v : Int} {c : Nat × Int} (h : c ∈ insertCell l a v) :
    c ∈ l ∨ (c = (a, v) ∧ v ≠ unlistedWord) := by
  induction l with
  | nil =>
    unfold insertCell at h
    split at h <;> simp_all
  | cons d rest ih =>
    unfold insertCell at h
    split at h
    · split at h
      · exact .inl h
      · rcases List.mem_cons.1 h with h | h
        · exact .inr ⟨h, ‹_›⟩
        · exact .inl h
    · split at h
      · split at h
        · exact .inl (List.mem_cons_of_mem _ h)
        · rcases List.mem_cons.1 h with h | h
          · exact .inr ⟨h, ‹_›⟩
          · exact .inl (List.mem_cons_of_mem _ h)
      · rcases List.mem_cons.1 h with h | h
        · exact .inl (by simp [h])
        · exact (ih h).imp (List.mem_cons_of_mem _) id

theorem insertCell_rising {l : List (Nat × Int)} (a : Nat) (v : Int) (h : risingCells l) : risingCells (insertCell l a v) := by
  induction l with
  | nil => unfold insertCell; split <;> simp
  | cons c rest ih =>
    obtain ⟨hc, hr⟩ := List.pairwise_cons.1 h
    unfold insertCell
    split
    · split
      · exact h
      · refine List.pairwise_cons.2 ⟨fun d hd => ?_, h⟩
        rcases List.mem_cons.1 hd with rfl | hd
        · assumption
        · exact Nat.lt_trans ‹_› (hc d hd)
    · split
      · split
        · exact hr
        · subst_vars; exact List.pairwise_cons.2 ⟨hc, hr⟩
      · refine List.pairwise_cons.2 ⟨fun d hd => ?_, ih hr⟩
        rcases mem_insertCell hd with hd | ⟨rfl, -⟩
        · exact hc d hd
        · show c.1 < a; omega

theorem lookupCell_insertCell_same {l : List (Nat × Int)} (a : Nat) (v : Int) (h : risingCells l) :
    lookupCell (insertCell l a v) a = v := by
  induction l with
  | nil => unfold insertCell; split <;> simp_all [lookupCell]
  | cons c rest ih =>
    obtain ⟨hc, hr⟩ := List.pairwise_cons.1 h
    unfold insertCell
    split
    · split <;> simp_all [lookupCell]
    · split
      · split
        · subst_vars; exact lookupCell_of_all_greater hc
        · simp [lookupCell]
      · simp_all [lookupCell]

theorem lookupCell_insertCell_other {l : List (Nat × Int)} {a b : Nat} (v : Int) (h : risingCells l) (hab : b ≠ a) :
    lookupCell (insertCell l a v) b = lookupCell l b := by
  induction l with
  | nil => unfold insertCell; split <;> simp [lookupCell, hab]
  | cons c rest ih =>
    obtain ⟨hc, hr⟩ := List.pairwise_cons.1 h
    unfold insertCell
    split
    · split
      · rfl
      · by_cases hb : b < a
        · have : b < c.1 := by omega
          simp [lookupCell, hb, this]
        · simp [lookupCell, hb, hab]
    · split
      · subst_vars
        split
        · by_cases hb : b < c.1
          · rw [lookupCell_of_all_greater fun d hd => Nat.lt_trans hb (hc d hd)]
            simp [lookupCell, hb]
          · simp [lookupCell, hb, hab]
        · simp [lookupCell, hab]
      · by_cases hb : b < c.1
        · simp [lookupCell, hb]
        · simp [lookupCell, hb, ih hr]

theorem lookupCell_mem {l : List (Nat × Int)} {a : Nat} : lookupCell l a = unlistedWord ∨ (a, lookupCell l a) ∈ l := by
  induction l with
  | nil => exact .inl rfl
  | cons c rest ih =>
    unfold lookupCell
    split
    · exact .inl rfl
    · split
      · subst_vars; exact .inr (by simp)
      · exact ih.imp id (List.mem_cons_of_mem _)

theorem readCell_write_same {m : Memory} (h : Memory.wf m) (a : Nat) (v : Int) : readCell (writeCell m a v) a = v :=
  lookupCell_insertCell_same a v h.1

theorem readCell_write_other {m : Memory} (h : Memory.wf m) {a b : Nat} (v : Int) (hab : b ≠ a) :
    readCell (writeCell m a v) b = readCell m b :=
  lookupCell_insertCell_other v h.1 hab

/-- Every memory operation keeps the canonical form. -/
theorem writeCell_wf {m : Memory} (h : Memory.wf m) {a : Nat} (ha : inMemory a) (v : Int) : Memory.wf (writeCell m a v) := by
  refine ⟨insertCell_rising a v h.1, fun c hc => ?_⟩
  rcases mem_insertCell hc with hc | ⟨rfl, hv⟩
  · exact h.2 c hc
  · exact ⟨ha, hv⟩

theorem writeCell_wordsInRange {m : Memory} (h : Memory.wordsInRange m) {a : Nat} {v : Int} (hv : inWord v) :
    Memory.wordsInRange (writeCell m a v) := by
  intro c hc
  rcases mem_insertCell hc with hc | ⟨rfl, -⟩
  · exact h c hc
  · exact hv

theorem readCell_inWord {m : Memory} (h : Memory.wordsInRange m) (a : Nat) : inWord (readCell m a) := by
  rcases lookupCell_mem (l := m.cells) (a := a) with h0 | hm
  · have : readCell m a = 0 := h0
    rw [this]; decide
  · exact h _ hm

theorem programOf_mem_regions (st : Store) : programOf st ∈ regionsOf st := by cases st <;> simp [programOf, regionsOf]

theorem dataOf_mem_regions (st : Store) : dataOf st ∈ regionsOf st := by cases st <;> simp [dataOf, regionsOf]

theorem writeDataOf_good {st : Store} (h : storeGood st) {a : Nat} (ha : inMemory a) {v : Int} (hv : inWord v) :
    storeGood (writeDataOf st a v) := by
  have hg : ∀ m, Memory.good m → Memory.good (writeCell m a v) :=
    fun m hm => ⟨writeCell_wf hm.1 ha v, writeCell_wordsInRange hm.2 hv⟩
  cases st with
  | split pm dm =>
    have hp := h pm (by simp [regionsOf])
    have hd := h dm (by simp [regionsOf])
    intro m hm
    rcases (by simpa [writeDataOf, regionsOf] using hm : m = _ ∨ m = _) with rfl | rfl
    · exact hp
    · exact hg dm hd
  | unified m₀ =>
    intro m hm
    rw [(by simpa [writeDataOf, regionsOf] using hm : m = _)]
    exact hg m₀ (h m₀ (by simp [regionsOf]))

theorem writeProgramOf_good {st : Store} (h : storeGood st) {a : Nat} (ha : inMemory a) {v : Int} (hv : inWord v) :
    storeGood (writeProgramOf st a v) := by
  have hg : ∀ m, Memory.good m → Memory.good (writeCell m a v) :=
    fun m hm => ⟨writeCell_wf hm.1 ha v, writeCell_wordsInRange hm.2 hv⟩
  cases st with
  | split pm dm =>
    have hp := h pm (by simp [regionsOf])
    have hd := h dm (by simp [regionsOf])
    intro m hm
    rcases (by simpa [writeProgramOf, regionsOf] using hm : m = _ ∨ m = _) with rfl | rfl
    · exact hg pm hp
    · exact hd
  | unified m₀ =>
    intro m hm
    rw [(by simpa [writeProgramOf, regionsOf] using hm : m = _)]
    exact hg m₀ (h m₀ (by simp [regionsOf]))

@[simp] theorem isUnified_writeDataOf (st : Store) (a : Nat) (v : Int) : isUnified (writeDataOf st a v) = isUnified st := by
  cases st <;> rfl

@[simp] theorem isUnified_writeProgramOf (st : Store) (a : Nat) (v : Int) : isUnified (writeProgramOf st a v) = isUnified st := by
  cases st <;> rfl

@[simp] theorem dataOf_writeDataOf (st : Store) (a : Nat) (v : Int) : dataOf (writeDataOf st a v) = writeCell (dataOf st) a v := by
  cases st <;> rfl

@[simp] theorem programOf_writeProgramOf (st : Store) (a : Nat) (v : Int) :
    programOf (writeProgramOf st a v) = writeCell (programOf st) a v := by
  cases st <;> rfl

theorem programOf_writeDataOf_split {st : Store} (h : isUnified st = false) (a : Nat) (v : Int) :
    programOf (writeDataOf st a v) = programOf st := by
  cases st <;> simp_all [isUnified, writeDataOf, programOf]

theorem dataOf_writeProgramOf_split {st : Store} (h : isUnified st = false) (a : Nat) (v : Int) :
    dataOf (writeProgramOf st a v) = dataOf st := by
  cases st <;> simp_all [isUnified, writeProgramOf, dataOf]

theorem programOf_eq_dataOf_unified {st : Store} (h : isUnified st = true) : programOf st = dataOf st := by
  cases st <;> simp_all [isUnified, programOf, dataOf]

/-- Every memory stays canonical under the data port's write. -/
theorem writeDataOf_canonical {st : Store} (h : storeCanonical st) {a : Nat} (ha : inMemory a) (v : Int) :
    storeCanonical (writeDataOf st a v) := by
  cases st with
  | split pm dm =>
    intro m hm
    simp only [writeDataOf, regionsOf, List.mem_cons, List.not_mem_nil, or_false] at hm
    rcases hm with rfl | rfl
    · exact h _ (by simp [regionsOf])
    · exact writeCell_wf (h _ (by simp [regionsOf])) ha v
  | unified n =>
    intro m hm
    simp only [writeDataOf, regionsOf, List.mem_cons, List.not_mem_nil, or_false] at hm
    subst hm
    exact writeCell_wf (h _ (by simp [regionsOf])) ha v

/-- Every memory stays canonical under the loader's write. -/
theorem writeProgramOf_canonical {st : Store} (h : storeCanonical st) {a : Nat} (ha : inMemory a) (v : Int) :
    storeCanonical (writeProgramOf st a v) := by
  cases st with
  | split pm dm =>
    intro m hm
    simp only [writeProgramOf, regionsOf, List.mem_cons, List.not_mem_nil, or_false] at hm
    rcases hm with rfl | rfl
    · exact writeCell_wf (h _ (by simp [regionsOf])) ha v
    · exact h _ (by simp [regionsOf])
  | unified n =>
    intro m hm
    simp only [writeProgramOf, regionsOf, List.mem_cons, List.not_mem_nil, or_false] at hm
    subst hm
    exact writeCell_wf (h _ (by simp [regionsOf])) ha v

/-- The data port's write stores one data Word, and does nothing else to the memories. -/
theorem storedAt_writeDataOf {st : Store} (h : storeCanonical st) (a : Nat) (v : Int) : StoredAt st (writeDataOf st a v) a v where
  shape := isUnified_writeDataOf st a v
  cell := by rw [dataOf_writeDataOf]; exact readCell_write_same (h _ (dataOf_mem_regions st)) a v
  others b hb := by rw [dataOf_writeDataOf]; exact readCell_write_other (h _ (dataOf_mem_regions st)) v hb
  split hs := programOf_writeDataOf_split hs a v
  unified hu := programOf_eq_dataOf_unified (by simpa using hu)

/-- The memories at reset are canonical. -/
theorem reset_store_canonical : storeCanonical State.reset.store := by decide

end Sys2Proof.Machine
end

