-- ==== Sys2Proof/Laws/Ops.lean ====
section
/-! SUPPORT. One lemma per shared operation that says what it does; the provers cite these and unfold nothing. -/

set_option autoImplicit false

namespace Sys2Proof.Machine

theorem withAddress_of_le {a : Nat} (h : a ≤ 99) (s : State) (k : Nat → Host.Outcome State Fault Refusal) :
    withAddress a s k = k a := by
  have : inMemory a := by show a < 100; omega
  simp [withAddress, operandAddress, this]

theorem withAddress_of_gt {a : Nat} (h : 99 < a) (s : State) (k : Nat → Host.Outcome State Fault Refusal) :
    withAddress a s k = .next (s.raiseFault .unknownOpcode) := by
  have : ¬ inMemory a := by show ¬ a < 100; omega
  simp [withAddress, operandAddress, this]

theorem withData_of_le {a : Nat} (h : a ≤ 99) (s : State) (k : Int → State) : withData a s k = .next (k (s.dataWord a)) :=
  withAddress_of_le h s _

theorem withData_of_gt {a : Nat} (h : 99 < a) (s : State) (k : Int → State) :
    withData a s k = .next (s.raiseFault .unknownOpcode) :=
  withAddress_of_gt h s _

theorem deliverChecked_of_inWord {s : State} {r : Int} (h : inWord r) : deliverChecked s r = (s.setAcc r).advance := if_pos h

theorem deliverChecked_of_overflow {s : State} {r : Int} (h : ¬ inWord r) :
    deliverChecked s r = s.raiseFault .arithmeticOverflow := if_neg h

theorem takeInput_cons_valid {v : Int} (h : inWord v) (cs : List Candidate) :
    takeInput (.value v :: cs) = some (v, cs) := by
  simp only [takeInput, validForRead, if_pos h]

theorem takeInput_append_invalid {bad : List Candidate} (h : ∀ c ∈ bad, validForRead c = none) (cs : List Candidate) :
    takeInput (bad ++ cs) = takeInput cs := by
  induction bad with
  | nil => rfl
  | cons c rest ih =>
    rw [List.cons_append, takeInput, h c (by simp)]
    exact ih fun d hd => h d (by simp [hd])

/-- Everything the input transaction can do. -/
theorem takeInput_eq_some {cs rest : List Candidate} {v : Int} (h : takeInput cs = some (v, rest)) :
    inWord v ∧ ∃ bad, (∀ c ∈ bad, validForRead c = none) ∧ cs = bad ++ .value v :: rest := by
  induction cs with
  | nil => cases h
  | cons c cs ih =>
    rw [takeInput] at h
    split at h
    · rename_i w hw
      cases h
      cases c with
      | unparsable => cases hw
      | value x =>
        simp only [validForRead] at hw
        split at hw
        · rename_i hx
          cases hw
          exact ⟨hx, [], by simp, rfl⟩
        · cases hw
    · rename_i hc
      obtain ⟨hv, bad, hbad, rfl⟩ := ih h
      exact ⟨hv, c :: bad, by simpa [hc] using hbad, rfl⟩

theorem takeInput_eq_none {cs : List Candidate} : takeInput cs = none ↔ ∀ c ∈ cs, validForRead c = none := by
  induction cs with
  | nil => simp [takeInput]
  | cons c cs ih =>
    rw [takeInput]
    split <;> simp_all

theorem fetchDecode_past_end {s : State} (h : ¬ s.ip < 100) : fetchDecode s = .error (s.raiseFault .programBoundsExceeded) :=
  if_neg h

theorem fetchDecode_unknown {s : State} (h : s.ip < 100) {e : DecodeReject} (hd : decode (s.programWord s.ip) = .error e) :
    fetchDecode s = .error ((s.latch (s.programWord s.ip)).raiseFault .unknownOpcode) := by
  simp [fetchDecode, h, hd]

theorem fetchDecode_instr {s : State} (h : s.ip < 100) {i : Instr} (hd : decode (s.programWord s.ip) = .ok i) :
    fetchDecode s = .ok (i, s.latch (s.programWord s.ip)) := by
  simp [fetchDecode, h, hd]

/-- Everything a step can do: nothing outside a run, the bounds fault, the unknown opcode, or the execution of the decoded
instruction from the latched state. -/
theorem step_cases {s t : State} (h : step s = .next t) :
    (s.es ≠ .running ∧ t = s) ∨
    (s.es = .running ∧ ¬ s.ip < 100 ∧ t = s.raiseFault .programBoundsExceeded) ∨
    (s.es = .running ∧ s.ip < 100 ∧ (∃ e, decode (s.programWord s.ip) = .error e) ∧
      t = (s.latch (s.programWord s.ip)).raiseFault .unknownOpcode) ∨
    (s.es = .running ∧ s.ip < 100 ∧ ∃ i, decode (s.programWord s.ip) = .ok i ∧
      exec i (s.latch (s.programWord s.ip)) = .next t) := by
  unfold step at h
  split at h
  · rename_i hr
    by_cases hip : s.ip < 100
    · cases hd : decode (s.programWord s.ip) with
      | error e =>
        rw [fetchDecode_unknown hip hd] at h
        exact .inr (.inr (.inl ⟨hr, hip, ⟨e, rfl⟩, by simpa using h.symm⟩))
      | ok i =>
        rw [fetchDecode_instr hip hd] at h
        exact .inr (.inr (.inr ⟨hr, hip, i, rfl, h⟩))
    · rw [fetchDecode_past_end hip] at h
      exact .inr (.inl ⟨hr, hip, by simpa using h.symm⟩)
  · exact .inl ⟨‹_›, by simpa using h.symm⟩

end Sys2Proof.Machine
end

