-- ==== Sys2Proof/Laws/Exec.lean ====
section
/-! SUPPORT. Everything an instruction can do, said once for all thirteen. -/

set_option autoImplicit false

namespace Sys2Proof.Machine

/-- The ways an instruction can leave the state, each with its condition. The first six are the fatal faults. -/
inductive ExecShape (s : State) : Instr → State → Prop where
  | badOperand (i : Instr) : 99 < i.operand → (∀ a, i ≠ .halt a) → ExecShape s i (s.raiseFault .unknownOpcode)
  | addFault (a : Nat) : a ≤ 99 → ¬ inWord (s.acc + s.dataWord a) → ExecShape s (.add a) (s.raiseFault .arithmeticOverflow)
  | subtractFault (a : Nat) : a ≤ 99 → ¬ inWord (s.acc - s.dataWord a) →
      ExecShape s (.subtract a) (s.raiseFault .arithmeticOverflow)
  | multiplyFault (a : Nat) : a ≤ 99 → ¬ inWord (s.acc * s.dataWord a) →
      ExecShape s (.multiply a) (s.raiseFault .arithmeticOverflow)
  | divideFault (a : Nat) : a ≤ 99 → s.dataWord a = 0 → ExecShape s (.divide a) (s.raiseFault .divisionByZero)
  | remainderFault (a : Nat) : a ≤ 99 → s.dataWord a = 0 → ExecShape s (.remainder a) (s.raiseFault .remainderByZero)
  | halt (a : Nat) : ExecShape s (.halt a) s.haltNormal
  | read (a : Nat) (v : Int) (rest : List Candidate) : a ≤ 99 → takeInput s.input = some (v, rest) →
      ExecShape s (.read a) (State.writeData { s with input := rest } a v).advance
  | write (a : Nat) : a ≤ 99 → ExecShape s (.write a) (s.emit (.out (s.dataWord a))).advance
  | load (a : Nat) : a ≤ 99 → ExecShape s (.load a) (s.setAcc (s.dataWord a)).advance
  | store (a : Nat) : a ≤ 99 → ExecShape s (.store a) (s.writeData a s.acc).advance
  | add (a : Nat) : a ≤ 99 → inWord (s.acc + s.dataWord a) → ExecShape s (.add a) (s.setAcc (s.acc + s.dataWord a)).advance
  | subtract (a : Nat) : a ≤ 99 → inWord (s.acc - s.dataWord a) →
      ExecShape s (.subtract a) (s.setAcc (s.acc - s.dataWord a)).advance
  | divide (a : Nat) : a ≤ 99 → s.dataWord a ≠ 0 → ExecShape s (.divide a) (s.setAcc (s.acc.tdiv (s.dataWord a))).advance
  | remainder (a : Nat) : a ≤ 99 → s.dataWord a ≠ 0 →
      ExecShape s (.remainder a) (s.setAcc (s.acc.tmod (s.dataWord a))).advance
  | multiply (a : Nat) : a ≤ 99 → inWord (s.acc * s.dataWord a) →
      ExecShape s (.multiply a) (s.setAcc (s.acc * s.dataWord a)).advance
  | branch (a : Nat) : a ≤ 99 → ExecShape s (.branch a) (s.jump a)
  | branchneg (a : Nat) : a ≤ 99 → s.acc < 0 → ExecShape s (.branchneg a) (s.jump a)
  | branchnegNot (a : Nat) : ¬ s.acc < 0 → ExecShape s (.branchneg a) s.advance
  | branchzero (a : Nat) : a ≤ 99 → s.acc = 0 → ExecShape s (.branchzero a) (s.jump a)
  | branchzeroNot (a : Nat) : s.acc ≠ 0 → ExecShape s (.branchzero a) s.advance

theorem withAddress_shape {s t : State} {i : Instr} (hh : ∀ a, i ≠ .halt a) {k : Nat → Host.Outcome State Fault Refusal}
    (hx : withAddress i.operand s k = .next t) (h : i.operand ≤ 99 → k i.operand = .next t → ExecShape s i t) :
    ExecShape s i t := by
  by_cases ha : i.operand ≤ 99
  · rw [withAddress_of_le ha] at hx; exact h ha hx
  · rw [withAddress_of_gt (by omega)] at hx; cases hx; exact .badOperand i (by omega) hh

theorem withData_shape {s t : State} {i : Instr} (hh : ∀ a, i ≠ .halt a) {k : Int → State}
    (hx : withData i.operand s k = .next t) (h : i.operand ≤ 99 → ExecShape s i (k (s.dataWord i.operand))) :
    ExecShape s i t :=
  withAddress_shape hh hx fun ha e => by cases e; exact h ha

theorem deliverChecked_shape {s : State} {i : Instr} {r : Int} (hf : ¬ inWord r → ExecShape s i (s.raiseFault .arithmeticOverflow))
    (h : inWord r → ExecShape s i (s.setAcc r).advance) : ExecShape s i (deliverChecked s r) := by
  unfold deliverChecked
  split
  · exact h ‹_›
  · exact hf ‹_›

theorem deliverDivided_shape {s : State} {i : Instr} {d : Int} {k : FaultKind} {r : Int}
    (hf : d = 0 → ExecShape s i (s.raiseFault k)) (h : d ≠ 0 → ExecShape s i (s.setAcc r).advance) :
    ExecShape s i (deliverDivided s d k r) := by
  unfold deliverDivided
  split
  · exact hf ‹_›
  · exact h ‹_›

theorem branchIf_shape {s t : State} {i : Instr} (hh : ∀ a, i ≠ .halt a) {c : Bool} (hx : branchIf c i.operand s = .next t)
    (ht : c = true → i.operand ≤ 99 → ExecShape s i (s.jump i.operand)) (hf : c = false → ExecShape s i s.advance) :
    ExecShape s i t := by
  cases c
  · cases hx; exact hf rfl
  · exact withAddress_shape hh hx fun ha e => by cases e; exact ht rfl ha

/-- The inversion lemma of `exec`. -/
theorem exec_shape {i : Instr} {s t : State} (h : exec i s = .next t) : ExecShape s i t := by
  cases i <;> simp only [exec, execRead, execWrite, execLoad, execStore, execAdd, execSubtract, execDivide, execRemainder,
    execMultiply, execBranch, execBranchneg, execBranchzero, execHalt] at h
  case read a =>
    refine withAddress_shape (i := .read a) (by simp) h fun ha e => ?_
    split at e
    · cases e; exact .read a _ _ ha ‹_›
    · cases e
  case write a => exact withData_shape (i := .write a) (by simp) h fun ha => .write a ha
  case load a => exact withData_shape (i := .load a) (by simp) h fun ha => .load a ha
  case store a => exact withAddress_shape (i := .store a) (by simp) h fun ha e => by cases e; exact .store a ha
  case add a => exact withData_shape (i := .add a) (by simp) h fun ha => deliverChecked_shape (.addFault a ha) (.add a ha)
  case subtract a =>
    exact withData_shape (i := .subtract a) (by simp) h fun ha => deliverChecked_shape (.subtractFault a ha) (.subtract a ha)
  case divide a =>
    exact withData_shape (i := .divide a) (by simp) h fun ha => deliverDivided_shape (.divideFault a ha) (.divide a ha)
  case remainder a =>
    exact withData_shape (i := .remainder a) (by simp) h fun ha => deliverDivided_shape (.remainderFault a ha) (.remainder a ha)
  case multiply a =>
    exact withData_shape (i := .multiply a) (by simp) h fun ha => deliverChecked_shape (.multiplyFault a ha) (.multiply a ha)
  case branch a => exact branchIf_shape (i := .branch a) (by simp) h (fun _ ha => .branch a ha) (by simp)
  case branchneg a =>
    exact branchIf_shape (i := .branchneg a) (by simp) h (fun hn ha => .branchneg a ha (of_decide_eq_true hn))
      fun hn => .branchnegNot a (of_decide_eq_false hn)
  case branchzero a =>
    exact branchIf_shape (i := .branchzero a) (by simp) h (fun hz ha => .branchzero a ha (of_decide_eq_true hz))
      fun hz => .branchzeroNot a (of_decide_eq_false hz)
  case halt a => cases h; exact .halt a

theorem withAddress_total {a : Nat} {s : State} {k : Nat → State} : ∃ t, (withAddress a s fun addr => .next (k addr)) = .next t := by
  by_cases ha : a ≤ 99
  · exact ⟨_, withAddress_of_le ha s _⟩
  · exact ⟨_, withAddress_of_gt (by omega) s _⟩

theorem branchIf_total {c : Bool} {a : Nat} {s : State} : ∃ t, branchIf c a s = .next t := by
  cases c
  · exact ⟨_, rfl⟩
  · exact withAddress_total

/-- A READ whose operand is an address, as one equation. -/
theorem exec_read_of_le {a : Nat} (h : a ≤ 99) (s : State) :
    exec (.read a) s =
      match takeInput s.input with
      | some (v, rest) => .next (State.writeData { s with input := rest } a v).advance
      | none => .fault .stuckInRead :=
  withAddress_of_le h s _

/-- Every instruction answers a next state, from every state, but for a READ that finds no valid candidate, which is stuck. -/
theorem exec_next_or_stuck (i : Instr) (s : State) :
    (∃ t, exec i s = .next t) ∨
    ∃ a, i = .read a ∧ a ≤ 99 ∧ takeInput s.input = none ∧ exec i s = .fault .stuckInRead := by
  cases i with
  | read a =>
    by_cases ha : a ≤ 99
    · cases hin : takeInput s.input with
      | some p => exact .inl ⟨_, by rw [exec_read_of_le ha, hin]⟩
      | none => exact .inr ⟨a, rfl, ha, rfl, by rw [exec_read_of_le ha, hin]⟩
    · exact .inl ⟨_, withAddress_of_gt (by omega) s _⟩
  | write a => exact .inl withAddress_total
  | load a => exact .inl withAddress_total
  | store a => exact .inl withAddress_total
  | add a => exact .inl withAddress_total
  | subtract a => exact .inl withAddress_total
  | divide a => exact .inl withAddress_total
  | remainder a => exact .inl withAddress_total
  | multiply a => exact .inl withAddress_total
  | branch a => exact .inl (branchIf_total (c := true))
  | branchneg a => exact .inl branchIf_total
  | branchzero a => exact .inl branchIf_total
  | halt a => exact .inl ⟨_, rfl⟩

/-- So does every step, but for one that finds the machine blocked in a READ. -/
theorem step_next_or_stuck (s : State) : (∃ t, step s = .next t) ∨ (s.WaitsInRead ∧ step s = .fault .stuckInRead) := by
  by_cases hr : s.es = .running
  · by_cases hip : s.ip < 100
    · cases hd : decode (s.programWord s.ip) with
      | error e => exact .inl ⟨_, by rw [step, if_pos hr, fetchDecode_unknown hip hd]⟩
      | ok i =>
        have hs : step s = exec i (s.latch (s.programWord s.ip)) := by rw [step, if_pos hr, fetchDecode_instr hip hd]
        rcases exec_next_or_stuck i (s.latch (s.programWord s.ip)) with ⟨t, ht⟩ | ⟨a, rfl, -, hin, ht⟩
        · exact .inl ⟨t, hs.trans ht⟩
        · exact .inr ⟨⟨hr, hip, ⟨a, hd⟩, hin⟩, hs.trans ht⟩
    · exact .inl ⟨_, by rw [step, if_pos hr, fetchDecode_past_end hip]⟩
  · exact .inl ⟨s, if_neg hr⟩

end Sys2Proof.Machine
end

