-- ==== Sys2Proof/Laws/HostInterface.lean ====
section
/-! SUPPORT. The loader's loop one candidate at a time, and everything `load` and `launch` can do. -/

set_option autoImplicit false

namespace Sys2Proof.Machine

theorem stopsAtFull_eq_false {p : LoaderFullPolicy} {la : Nat} (h : la ≤ 99 ∨ p = .faultOn101stWord) : stopsAtFull p la = false := by
  simp only [stopsAtFull, decide_eq_false_iff_not]
  rcases h with h | rfl
  · rintro ⟨-, h2⟩; omega
  · rintro ⟨h1, -⟩; cases h1

section
variable {p : LoaderFullPolicy} {la : Nat} {st : Store} {cs : List Candidate} {v : Int}

theorem loadLoop_full (h : stopsAtFull p la = true) : loadLoop p la st cs = (.returned .programTooLarge, st, cs) := by
  rw [loadLoop.eq_def, if_pos h]

theorem loadLoop_nil (h : stopsAtFull p la = false) : loadLoop p la st [] = (.loading la, st, []) := by
  rw [loadLoop.eq_def]; simp [h]

theorem loadLoop_unparsable (h : stopsAtFull p la = false) : loadLoop p la st (.unparsable :: cs) = loadLoop p la st cs := by
  rw [loadLoop.eq_def]; simp [h]

theorem loadLoop_sentinel (h : stopsAtFull p la = false) :
    loadLoop p la st (.value (-99999) :: cs) = (.returned (.ok la), st, cs) := by
  rw [loadLoop.eq_def]; simp [h]

theorem loadLoop_outOfRange (h : stopsAtFull p la = false) (hs : v ≠ -99999) (hv : ¬ inWord v) :
    loadLoop p la st (.value v :: cs) = loadLoop p la st cs := by
  rw [loadLoop.eq_def]; simp only [h, if_neg hs, if_pos hv]; simp

theorem loadLoop_tooLarge (h : stopsAtFull p la = false) (hv : inWord v) (hf : 100 ≤ la) :
    loadLoop p la st (.value v :: cs) = (.returned .programTooLarge, st, cs) := by
  have hs : v ≠ -99999 := by unfold inWord at hv; omega
  rw [loadLoop.eq_def]; simp only [h, if_neg hs, if_neg (not_not.2 hv), if_pos hf]; simp

theorem loadLoop_accept (h : stopsAtFull p la = false) (hv : inWord v) (hf : la < 100) :
    loadLoop p la st (.value v :: cs) = loadLoop p (la + 1) (writeProgramOf st la v) cs := by
  have hs : v ≠ -99999 := by unfold inWord at hv; omega
  rw [loadLoop.eq_def]; simp only [h, if_neg hs, if_neg (not_not.2 hv), if_neg (Nat.not_le.2 hf)]; simp

end

/-- Every memory that the loader leaves is canonical and holds Words; the configuration is as before, and the load address or the
length is in 0..100. -/
theorem loadLoop_good {p : LoaderFullPolicy} : ∀ (cs : List Candidate) (la : Nat) (st : Store), la ≤ 100 → storeGood st →
    loaderInRange (loadLoop p la st cs).1 = true ∧ storeGood (loadLoop p la st cs).2.1 ∧
      isUnified (loadLoop p la st cs).2.1 = isUnified st
  | cs, la, st, hla, hst => by
    cases hf : stopsAtFull p la with
    | true => rw [loadLoop_full hf]; exact ⟨rfl, hst, rfl⟩
    | false =>
      match cs with
      | [] => rw [loadLoop_nil hf]; exact ⟨decide_eq_true hla, hst, rfl⟩
      | .unparsable :: rest => rw [loadLoop_unparsable hf]; exact loadLoop_good rest la st hla hst
      | .value v :: rest =>
        by_cases hs : v = -99999
        · subst hs; rw [loadLoop_sentinel hf]; exact ⟨decide_eq_true hla, hst, rfl⟩
        · by_cases hv : inWord v
          · by_cases hfull : 100 ≤ la
            · rw [loadLoop_tooLarge hf hv hfull]; exact ⟨rfl, hst, rfl⟩
            · rw [loadLoop_accept hf hv (by omega)]
              have := loadLoop_good (p := p) rest (la + 1) (writeProgramOf st la v) (by omega)
                (writeProgramOf_good hst (by show la < 100; omega) hv)
              simpa using this
          · rw [loadLoop_outOfRange hf hs hv]; exact loadLoop_good rest la st hla hst

/-- Everything `load` can do, where it is accepted. -/
theorem load_cases {s t : State} (h : load s = .next t) :
    s.es = .idle ∧ ((s.loader = .notCalled ∧ t = s.runLoader 0) ∨ ∃ la, s.loader = .loading la ∧ t = s.runLoader la) := by
  unfold load at h
  split_ifs at h with he
  refine ⟨not_not.1 he, ?_⟩
  split at h
  · cases h; exact .inl ⟨‹_›, rfl⟩
  · cases h; exact .inr ⟨_, ‹_›, rfl⟩
  · cases h

/-- Everything `launch` can do, where it is accepted. -/
theorem launch_cases {s t : State} (h : launch s = .next t) :
    s.es = .idle ∧ t = s.start ∧ ∃ n, 1 ≤ n ∧ s.loader = .returned (.ok n) := by
  unfold launch at h
  split_ifs at h with he
  split at h
  · split_ifs at h with hn
    cases h; exact ⟨not_not.1 he, rfl, _, hn, ‹_›⟩
  all_goals cases h

end Sys2Proof.Machine
end

