-- ==== Sys2Proof/Laws/PerInstr.lean ====
section
/-! SUPPORT. Statements for all instructions, one lemma per constructor. -/

set_option autoImplicit false

namespace Sys2Proof.Laws

/-- The Word of a well-formed instruction is one of the hundred Words of its opcode (30_encoding.md R53, R55): a Word, in
1000..4399. -/
def LegalWord.Statement (i : Instr) : Prop :=
  i.WellFormed → inWord (encode i) ∧ 1000 ≤ encode i ∧ encode i ≤ 4399 ∧
    i.opcode * 100 ≤ encode i ∧ encode i ≤ i.opcode * 100 + 99

/-- The reason is the same for every instruction: the opcode is in 10..43 and the operand in 0..99. -/
theorem legalWord_of_operand (i : Instr) : LegalWord.Statement i := by
  intro h
  have ho := opcode_range i
  have hw : i.operand ≤ 99 := h
  simp only [encode, codecEncode]
  omega

theorem LegalWord.read (a : Nat) : LegalWord.Statement (.read a) := legalWord_of_operand _
theorem LegalWord.write (a : Nat) : LegalWord.Statement (.write a) := legalWord_of_operand _
theorem LegalWord.load (a : Nat) : LegalWord.Statement (.load a) := legalWord_of_operand _
theorem LegalWord.store (a : Nat) : LegalWord.Statement (.store a) := legalWord_of_operand _
theorem LegalWord.add (a : Nat) : LegalWord.Statement (.add a) := legalWord_of_operand _
theorem LegalWord.subtract (a : Nat) : LegalWord.Statement (.subtract a) := legalWord_of_operand _
theorem LegalWord.divide (a : Nat) : LegalWord.Statement (.divide a) := legalWord_of_operand _
theorem LegalWord.remainder (a : Nat) : LegalWord.Statement (.remainder a) := legalWord_of_operand _
theorem LegalWord.multiply (a : Nat) : LegalWord.Statement (.multiply a) := legalWord_of_operand _
theorem LegalWord.branch (a : Nat) : LegalWord.Statement (.branch a) := legalWord_of_operand _
theorem LegalWord.branchneg (a : Nat) : LegalWord.Statement (.branchneg a) := legalWord_of_operand _
theorem LegalWord.branchzero (a : Nat) : LegalWord.Statement (.branchzero a) := legalWord_of_operand _
theorem LegalWord.halt (a : Nat) : LegalWord.Statement (.halt a) := legalWord_of_operand _

end Sys2Proof.Laws
end

