-- ==== Sys2Proof/Tests/Slice0.lean ====
section
/-! SUPPORT. The model's own tests, and for every statement with hypotheses a witness that something meets them. The expected values
are the spec's: the opcode table (30_encoding.md R55), the worked examples and vectors of 95_worked_examples.md, and the examples in
the rules named. -/

set_option autoImplicit false

namespace Sys2Proof.Tests

open Sys2Proof.Machine

/-! ## Helpers -/

/-- A running machine in the split configuration, with the cells given. -/
def machine (acc : Int) (ip : Nat) (pm dm : List (Nat × Int)) (input : List Candidate) : State :=
  { State.reset with acc := acc, ip := ip, es := .running, store := .split ⟨pm⟩ ⟨dm⟩, input := input }

/-- A running machine in the unified configuration. -/
def unifiedMachine (acc : Int) (ip : Nat) (m : List (Nat × Int)) (input : List Candidate) : State :=
  { State.reset with
    acc := acc, ip := ip, es := .running, store := .unified ⟨m⟩, input := input, config := { initial := .unified ⟨[]⟩ } }

/-- The outcome is a next state, and that state has the property. -/
def leadsTo (o : Host.Outcome State Fault Refusal) (p : State → Bool) : Bool :=
  match o with
  | .next t => p t
  | .fault _ => false
  | .refused _ => false

/-- The outcome is a refusal, with this reason. -/
def isRefused (o : Host.Outcome State Fault Refusal) (r : Refusal) : Bool :=
  match o with
  | .next _ => false
  | .fault _ => false
  | .refused q => decide (q = r)

/-- The outcome is that the machine has no step. -/
def isStuck (o : Host.Outcome State Fault Refusal) : Bool :=
  match o with
  | .next _ => false
  | .fault q => decide (q = .stuckInRead)
  | .refused _ => false

/-- A machine at reset with candidates supplied. -/
def supplied (c : Config) (cs : List Candidate) : State := (State.resetOf c).supply cs

/-! ## Well-formedness: its one check, the operand -/

theorem test_wf_operand_99 : (Instr.read 99).WellFormed ∧ (Instr.halt 99).WellFormed ∧ (Instr.add 0).WellFormed := by decide
theorem test_wf_refuses_operand_100 : ¬ (Instr.load 100).WellFormed ∧ ¬ (Instr.branch 100).WellFormed ∧
    ¬ (Instr.halt 100).WellFormed ∧ ¬ (Instr.read 2007).WellFormed := by decide

/-! ## Decoding: one Word of each row of the opcode table, and illegal Words of each class (30_encoding.md R55, R56) -/

theorem test_decode_read : decode 1007 = .ok (.read 7) := by decide
theorem test_decode_write : decode 1199 = .ok (.write 99) := by decide
theorem test_decode_load : decode 2007 = .ok (.load 7) := by decide
theorem test_decode_store : decode 2107 = .ok (.store 7) := by decide
theorem test_decode_add : decode 3099 = .ok (.add 99) := by decide
theorem test_decode_subtract : decode 3108 = .ok (.subtract 8) := by decide
theorem test_decode_divide : decode 3250 = .ok (.divide 50) := by decide
theorem test_decode_remainder : decode 3311 = .ok (.remainder 11) := by decide
theorem test_decode_multiply : decode 3405 = .ok (.multiply 5) := by decide
theorem test_decode_branch : decode 4099 = .ok (.branch 99) := by decide
theorem test_decode_branchneg : decode 4105 = .ok (.branchneg 5) := by decide
theorem test_decode_branchzero : decode 4203 = .ok (.branchzero 3) := by decide
theorem test_decode_halt : decode 4300 = .ok (.halt 0) ∧ decode 4399 = .ok (.halt 99) := by decide
theorem test_decode_illegal_gaps :
    decode 0 = .error (.unknownOpcode 0 0) ∧ decode 999 = .error (.unknownOpcode 9 99) ∧
    decode 1200 = .error (.unknownOpcode 12 0) ∧ decode 1999 = .error (.unknownOpcode 19 99) ∧
    decode 2200 = .error (.unknownOpcode 22 0) ∧ decode 2999 = .error (.unknownOpcode 29 99) ∧
    decode 3500 = .error (.unknownOpcode 35 0) ∧ decode 3999 = .error (.unknownOpcode 39 99) ∧
    decode 4400 = .error (.unknownOpcode 44 0) ∧ decode 9999 = .error (.unknownOpcode 99 99) := by decide
theorem test_decode_illegal_negative :
    decode (-1) = .error (.unknownOpcode 0 (-1)) ∧ decode (-101) = .error (.unknownOpcode (-1) (-1)) ∧
    decode (-2007) = .error (.unknownOpcode (-20) (-7)) ∧ decode (-9999) = .error (.unknownOpcode (-99) (-99)) := by decide
theorem test_encode : encode (.store 7) = 2107 ∧ encode (.multiply 99) = 3499 ∧ encode (.halt 0) = 4300 := by decide
theorem test_decodeTableWord : decodeTableWord 16 2007 = some (.load 7) ∧ decodeTableWord 16 4300 = some (.halt 0) ∧
    decodeTableWord 16 0 = none ∧ decodeTableWord 16 63529 = none := by decide

/-! ## A word placed for the fetch runs in the very next step, right after reset -/

theorem test_withFetchWord_runs :
    leadsTo (step (State.reset.withFetchWord 16 4000)) (fun t => t.ir = 4000 ∧ t.opc = 40 ∧ t.opd = 0 ∧ t.ip = 0) = true := by decide
theorem test_withFetchWord_halt :
    leadsTo (step (State.reset.withFetchWord 16 4300)) (fun t => t.es = .haltedNormal ∧ t.ip = 0) = true := by decide
theorem test_reset_step_is_idle : leadsTo (step State.reset) (fun t => t = State.reset) = true := by decide

/-! ## One step of each instruction (95_worked_examples.md Part 1, Part 2; the rules' own examples) -/

/-- 41_io.md R90, its example: `10050, 5`. -/
theorem test_read_skips_invalid :
    leadsTo (step (machine 7 0 [(0, 1010)] [] [.value 10050, .value 5, .value 6]))
      (fun t => t.dataWord 10 = 5 ∧ t.ip = 1 ∧ t.acc = 7 ∧ t.input = [.value 6]) = true := by decide
/-- 41_io.md R91; 95_worked_examples.md P10: no step, then one more candidate, 6. -/
theorem test_read_blocks :
    isStuck (step (machine 0 0 [(0, 1010)] [] [.value 10000, .value (-99999), .unparsable])) = true ∧
    leadsTo (step ((machine 0 0 [(0, 1010)] [] [.value 10000, .value (-99999), .unparsable]).supply [.value 6]))
      (fun t => t.dataWord 10 = 6 ∧ t.ip = 1 ∧ t.input = [] ∧ t.es = .running) = true := by decide
/-- 41_io.md R92, its example. -/
theorem test_write_emits :
    leadsTo (step (machine 0 0 [(0, 1107)] [(7, 42)] [])) (fun t => t.output = [.out 42] ∧ t.ip = 1) = true := by decide
/-- 95_worked_examples.md P1, cycle 1. -/
theorem test_load_copies :
    leadsTo (step (machine 0 0 [(0, 2007)] [(7, 42)] [])) (fun t => t.acc = 42 ∧ t.ip = 1 ∧ t.ir = 2007) = true := by decide
/-- 42_load_store.md R101, and the two configurations of 95_worked_examples.md P6. -/
theorem test_store_split :
    leadsTo (step (machine 4300 1 [(1, 2103)] [(5, 4300)] []))
      (fun t => t.dataWord 3 = 4300 ∧ t.programWord 3 = 0 ∧ t.ip = 2) = true := by decide
theorem test_store_unified :
    leadsTo (step (unifiedMachine 4300 1 [(1, 2103), (5, 4300)] []))
      (fun t => t.dataWord 3 = 4300 ∧ t.programWord 3 = 4300 ∧ t.ip = 2) = true := by decide
/-- 43_arithmetic.md R111, its two examples. -/
theorem test_add_to_the_bound :
    leadsTo (step (machine 9000 0 [(0, 3050)] [(50, 999)] [])) (fun t => t.acc = 9999 ∧ t.ip = 1 ∧ t.es = .running) = true := by decide
theorem test_add_overflows :
    leadsTo (step (machine 9000 0 [(0, 3050)] [(50, 1500)] []))
      (fun t => t.acc = 9000 ∧ t.ip = 0 ∧ t.es = .haltedFault ∧ t.fc = some .arithmeticOverflow ∧ t.opc = 30 ∧ t.opd = 50) =
      true := by decide
/-- 43_arithmetic.md R112, its two examples. -/
theorem test_subtract_is_acc_minus_data :
    leadsTo (step (machine 0 0 [(0, 3150)] [(50, -9999)] [])) (fun t => t.acc = 9999 ∧ t.ip = 1) = true := by decide
theorem test_subtract_overflows :
    leadsTo (step (machine 1 0 [(0, 3150)] [(50, -9999)] []))
      (fun t => t.acc = 1 ∧ t.es = .haltedFault ∧ t.fc = some .arithmeticOverflow) = true := by decide
/-- 43_arithmetic.md R113, its example; 95_worked_examples.md S4. -/
theorem test_divide_truncates :
    leadsTo (step (machine (-7) 0 [(0, 3250)] [(50, 2)] [])) (fun t => t.acc = -3 ∧ t.ip = 1) = true := by decide
theorem test_divide_by_zero :
    leadsTo (step (machine 84 0 [(0, 3250)] [] []))
      (fun t => t.acc = 84 ∧ t.ip = 0 ∧ t.ir = 3250 ∧ t.fc = some .divisionByZero) = true := by decide
/-- 43_arithmetic.md R118, its examples; 95_worked_examples.md S4. -/
theorem test_remainder_follows_dividend :
    leadsTo (step (machine (-7) 0 [(0, 3350)] [(50, 2)] [])) (fun t => t.acc = -1) = true ∧
    leadsTo (step (machine 7 0 [(0, 3350)] [(50, -2)] [])) (fun t => t.acc = 1) = true := by decide
theorem test_remainder_by_zero :
    leadsTo (step (machine 84 0 [(0, 3350)] [] [])) (fun t => t.acc = 84 ∧ t.ip = 0 ∧ t.fc = some .remainderByZero) = true := by decide
/-- 43_arithmetic.md R115, its two examples. -/
theorem test_multiply_to_the_bound :
    leadsTo (step (machine 99 0 [(0, 3450)] [(50, 101)] [])) (fun t => t.acc = 9999 ∧ t.ip = 1) = true := by decide
theorem test_multiply_overflows :
    leadsTo (step (machine 100 0 [(0, 3450)] [(50, 100)] []))
      (fun t => t.acc = 100 ∧ t.fc = some .arithmeticOverflow) = true := by decide
/-- 44_control.md R130, its example. -/
theorem test_branch :
    leadsTo (step (machine 0 5 [(5, 4000)] [] [])) (fun t => t.ip = 0 ∧ t.es = .running) = true := by decide
/-- 44_control.md R131, its two examples. -/
theorem test_branchneg :
    leadsTo (step (machine (-3) 4 [(4, 4110)] [] [])) (fun t => t.ip = 10) = true ∧
    leadsTo (step (machine 0 4 [(4, 4110)] [] [])) (fun t => t.ip = 5) = true := by decide
/-- 44_control.md R132; 95_worked_examples.md S5 and its counter-case. -/
theorem test_branchzero :
    leadsTo (step (machine 0 0 [(0, 4203)] [] [])) (fun t => t.ip = 3) = true ∧
    leadsTo (step (machine 5 0 [(0, 4203)] [] [])) (fun t => t.ip = 1) = true := by decide
/-- 44_control.md R134, its example; 40_cycle.md R77. -/
theorem test_halt :
    leadsTo (step (machine 42 3 [(3, 4300)] [] []))
      (fun t => t.es = .haltedNormal ∧ t.ip = 3 ∧ t.acc = 42 ∧ t.fc = none ∧
        t.output = [.notice .terminated, .report t.dump] ∧ t.dump.ir = 4300) = true := by decide

/-! ## The faults outside the handlers (95_worked_examples.md V2, P9) -/

theorem test_past_the_end :
    leadsTo (step (machine 7 100 [] [] []))
      (fun t => t.ip = 100 ∧ t.acc = 7 ∧ t.ir = 0 ∧ t.es = .haltedFault ∧ t.fc = some .programBoundsExceeded ∧
        t.output = [.notice .abnormal, .report t.dump]) = true := by decide
theorem test_unknown_opcode_latched :
    leadsTo (step (machine 0 0 [(0, -2007)] [] []))
      (fun t => t.ir = -2007 ∧ t.opc = -20 ∧ t.opd = -7 ∧ t.ip = 0 ∧ t.fc = some .unknownOpcode) = true := by decide
theorem test_address_99_advances_to_100 :
    leadsTo (step (machine 7 99 [(99, 2000)] [] [])) (fun t => t.ip = 100 ∧ t.acc = 0 ∧ t.es = .running) = true := by decide

/-! ## The host interface (95_worked_examples.md S2, V12, V13, V14) -/

theorem test_load_example :
    leadsTo (load (supplied { } [.value 10050, .value 50, .value (-99999), .value 8]))
      (fun t => t.programWord 0 = 50 ∧ t.programWord 1 = 0 ∧ t.loader = .returned (.ok 1) ∧ t.input = [.value 8]) = true := by decide
theorem test_load_waits :
    leadsTo (load (supplied { } [.value 2007])) (fun t => t.loader = .loading 1 ∧ t.es = .idle) = true := by decide
theorem test_launch_after_empty_program :
    isRefused (launch { State.reset with loader := .returned (.ok 0) }) .runOfEmptyProgram = true := by decide
theorem test_launch_without_load : isRefused (launch State.reset) .runWithoutLoad = true := by decide
theorem test_launch_accepted :
    leadsTo (launch { State.reset with loader := .returned (.ok 4), ip := 100 }) (fun t => t.ip = 0 ∧ t.es = .running) = true := by
  decide
theorem test_report_grid :
    ((reportGrid (allWords ⟨[(7, 42), (99, -3)]⟩)).map fun row => row[9]?)[9]? = some (some ⟨.minus, 3⟩) ∧
    ((reportGrid (allWords ⟨[(7, 42), (99, -3)]⟩)).map fun row => row[7]?)[0]? = some (some ⟨.plus, 42⟩) ∧
    showCell 0 = ⟨.plus, 0⟩ := by decide

/-- 45_host_interface.md R145, the last Words of a long load, under the two policies. -/
theorem test_load_full_default :
    leadsTo (load { supplied { } [.value 1, .value (-99999)] with loader := .loading 99 })
      (fun t => t.loader = .returned .programTooLarge ∧ t.programWord 99 = 1 ∧ t.input = [.value (-99999)]) = true := by decide
theorem test_load_full_101 :
    leadsTo (load { supplied { loaderFull := .faultOn101stWord } [.value 1, .value (-99999)] with loader := .loading 99 })
      (fun t => t.loader = .returned (.ok 100) ∧ t.programWord 99 = 1 ∧ t.input = []) = true ∧
    leadsTo (load { supplied { loaderFull := .faultOn101stWord } [.value 20000, .value 1] with loader := .loading 100 })
      (fun t => t.loader = .returned .programTooLarge ∧ t.input = []) = true := by decide

/-! ## Witnesses: something meets the hypotheses of each statement (one theorem a statement, its clauses at boundary values) -/

theorem witness_CodecTruncatesTowardZero :
    (inWord 9999 ∧ (0 : Int) ≤ 9999) ∧ (inWord (-9999) ∧ (-9999 : Int) ≤ 0) ∧ inWord 0 := by decide
theorem witness_CodecRoundTrip : (10 : Int) ∈ legalOpcodes ∧ (43 : Int) ∈ legalOpcodes ∧ (0 : Int) ≤ 0 ∧ (99 : Int) ≤ 99 ∧
    inWord (-9999) ∧ codecDecode 9999 = codecDecode 9999 := by decide
theorem witness_DecodeOfEncode : (Instr.read 0).WellFormed ∧ (Instr.halt 99).WellFormed := by decide
theorem witness_WordsOfEachInstruction : inWord 1000 ∧ inWord 4399 ∧ inWord (-9999) := by decide
theorem witness_IllegalWordsAreRejected : inWord (-9999) ∧ inWord 9999 := by decide
theorem witness_LegalOpcodeHasAddress : inWord 1000 ∧ (1000 : Int).tdiv 100 ∈ legalOpcodes ∧ (4399 : Int).tdiv 100 ∈ legalOpcodes ∧
    inWord (-9999) ∧ (-9999 : Int).tmod 100 < 0 ∧ (-1 : Int).tmod 100 < 0 := by decide
theorem witness_StepRunsDecodedInstruction :
    (machine 0 99 [(99, 4300)] [] []).es = .running ∧ (machine 0 99 [(99, 4300)] [] []).ip < 100 ∧
    decode ((machine 0 99 [(99, 4300)] [] []).programWord 99) = .ok (.halt 0) ∧
    decode ((machine 0 0 [] [] []).programWord 0) = .error (.unknownOpcode 0 0) := by decide
theorem witness_UnknownOpcodeEndsRun :
    (machine 0 99 [(99, 4400)] [] []).es = .running ∧ (machine 0 99 [(99, 4400)] [] []).ip < 100 ∧
    ((machine 0 99 [(99, 4400)] [] []).programWord 99).tdiv 100 ∉ legalOpcodes := by decide
theorem witness_RunningOffTheEndFaults : (machine 0 100 [] [] []).es = .running ∧ 100 ≤ (machine 0 100 [] [] []).ip := by decide
theorem witness_NoCycleOutsideARun :
    State.reset.es ≠ .running ∧
    ∃ t, step (machine 0 0 [(0, 4000)] [] []) = .next t ∧ t.es = .running := ⟨by decide, _, rfl, by decide⟩
theorem witness_EndedMachineNeverMoves :
    State.Ended { State.reset with es := .haltedNormal } ∧ State.Ended { State.reset with es := .haltedFault } :=
  ⟨.inl rfl, .inr rfl⟩
/-- A cycle that completes, one that faults, one past the last address, and a READ that finds its candidate. -/
theorem witness_IpMovesByTheTable :
    (∃ t, step (machine 1 99 [(99, 4299)] [] []) = .next t) ∧ (∃ t, step (machine 9999 0 [(0, 3050)] [(50, 1)] []) = .next t) ∧
    (∃ t, step (machine 0 100 [] [] []) = .next t) ∧ (∃ t, step (machine 0 0 [(0, 1010)] [] [.value 5]) = .next t) :=
  ⟨⟨_, rfl⟩, ⟨_, rfl⟩, ⟨_, rfl⟩, ⟨_, rfl⟩⟩
theorem witness_WhenACycleFaults :
    (machine 9999 0 [(0, 3050)] [(50, 1)] []).es = .running ∧ (machine 9999 0 [(0, 3050)] [(50, 1)] []).fc = none ∧
    ∃ t, step (machine 9999 0 [(0, 3050)] [(50, 1)] []) = .next t := ⟨rfl, rfl, ⟨_, rfl⟩⟩
theorem witness_FaultChangesNothingElse :
    (∃ t, step (machine 7 100 [] [] []) = .next t ∧ t.es = .haltedFault) ∧
    (∃ t, step (machine 7 99 [(99, 3250)] [] []) = .next t ∧ t.es = .haltedFault) := ⟨⟨_, rfl, rfl⟩, ⟨_, rfl, rfl⟩⟩
theorem witness_NormalEndOnlyByHalt :
    (∃ t, step (machine 0 99 [(99, 4399)] [] []) = .next t ∧ t.es = .haltedNormal) ∧
    (∃ t, step (machine 0 99 [(99, 4400)] [] []) = .next t ∧ t.es ≠ .haltedNormal) :=
  ⟨⟨_, rfl, rfl⟩, ⟨_, rfl, by decide⟩⟩

/-- Three invalid candidates, then the least Word; and none, then the greatest. -/
theorem witness_ReadStoresFirstValidCandidate :
    storeCanonical (machine 0 0 [(0, 1099)] [(99, 7)] []).store ∧
    (∀ c ∈ [Candidate.value 10000, .unparsable, .value (-99999)], c = .unparsable ∨ ∃ x, c = .value x ∧ (x < -9999 ∨ 9999 < x)) ∧
    (machine 0 0 [(0, 1099)] [(99, 7)] [.value 10000, .unparsable, .value (-99999), .value (-9999)]).input =
      [.value 10000, .unparsable, .value (-99999)] ++ .value (-9999) :: [] ∧
    (machine 0 0 [(0, 1099)] [(99, 7)] [.value 9999]).input = [] ++ .value 9999 :: [] := by
  refine ⟨by decide, ?_, rfl, rfl⟩
  simp
theorem witness_ReadWaitsForInput :
    ∀ c ∈ (machine 0 0 [(0, 1010)] [] [.value (-10000), .unparsable]).input,
      c = .unparsable ∨ ∃ x, c = .value x ∧ (x < -9999 ∨ 9999 < x) := by
  show ∀ c ∈ [Candidate.value (-10000), .unparsable], _
  simp
theorem witness_WaitingReadNeverProceeds :
    (machine 0 99 [(99, 1010)] [] [.value 10000, .unparsable]).WaitsInRead ∧ inWord (-9999) ∧
    (∀ c ∈ [Candidate.value (-10000)], c = .unparsable ∨ ∃ x, c = .value x ∧ (x < -9999 ∨ 9999 < x)) ∧
    storeCanonical (machine 0 99 [(99, 1010)] [] [.value 10000, .unparsable]).store :=
  ⟨⟨rfl, by decide, ⟨10, rfl⟩, rfl⟩, by decide, by simp, by decide⟩
/-- The operand's range, for the statements whose only hypothesis it is: WriteEmitsDataWord, LoadCopiesDataWord, AddIsExactOrFaults,
SubtractIsExactOrFaults, MultiplyIsExactOrFaults, BranchSetsIp, BranchnegTestsAccumulator, BranchzeroTestsAccumulator and
HaltEndsTheRun hold of every state. -/
theorem witness_operand_only : (0 : Nat) ≤ 99 ∧ (99 : Nat) ≤ 99 := by decide
theorem witness_PortsReachedOnlyByReadAndWrite :
    (machine 0 0 [] [] []).es = .running ∧ (∀ a, Instr.halt 0 ≠ .read a) ∧
    (∃ t, exec (.halt 0) (machine 0 0 [] [] []) = .next t) ∧ (∃ t, exec (.write 7) (machine 0 0 [] [] []) = .next t) :=
  ⟨rfl, nofun, ⟨_, rfl⟩, ⟨_, rfl⟩⟩
theorem witness_StoreWritesAccumulator :
    storeCanonical (machine 0 0 [] [(7, 42)] []).store ∧ storeCanonical (unifiedMachine 0 0 [(0, 2107), (7, 42)] []).store := by decide
/-- Each of the three instructions; results at both bounds and just past them. -/
theorem witness_OverflowLaw :
    (9999 : Int) = (machine 9000 0 [] [(50, 999)] []).acc + (machine 9000 0 [] [(50, 999)] []).dataWord 50 ∧
    (10000 : Int) = (machine 1 0 [] [(50, -9999)] []).acc - (machine 1 0 [] [(50, -9999)] []).dataWord 50 ∧
    (-9999 : Int) = (machine 99 0 [] [(50, -101)] []).acc * (machine 99 0 [] [(50, -101)] []).dataWord 50 ∧
    (-10000 : Int) = (machine 100 0 [] [(50, -100)] []).acc * (machine 100 0 [] [(50, -100)] []).dataWord 50 := by decide
/-- A zero divisor, and each combination of signs. -/
theorem witness_DivideTruncatesOrFaults :
    (machine 0 0 [] [] []).dataWord 99 = 0 ∧ (machine 7 0 [] [(50, 2)] []).dataWord 50 ≠ 0 ∧
    (0 ≤ (machine 7 0 [] [(50, 2)] []).acc ∧ 0 < (machine 7 0 [] [(50, 2)] []).dataWord 50) ∧
    ((machine (-7) 0 [] [(50, 2)] []).acc ≤ 0 ∧ 0 < (machine (-7) 0 [] [(50, 2)] []).dataWord 50) ∧
    (0 ≤ (machine 7 0 [] [(50, -2)] []).acc ∧ (machine 7 0 [] [(50, -2)] []).dataWord 50 < 0) ∧
    ((machine 0 0 [] [(50, -1)] []).acc ≤ 0 ∧ (machine 0 0 [] [(50, -1)] []).dataWord 50 < 0) := by decide
theorem witness_RemainderFollowsDividendOrFaults :
    (machine 0 0 [] [] []).dataWord 0 = 0 ∧ (machine (-7) 0 [] [(99, -2)] []).dataWord 99 ≠ 0 ∧
    (machine (-7) 0 [] [(99, -2)] []).acc ≤ 0 ∧ 0 ≤ (machine 7 0 [] [(99, -2)] []).acc := by decide
theorem witness_QuotientsAndRemaindersAreWords :
    inWord (machine (-9999) 0 [] [(50, -1)] []).acc ∧ inWord ((machine (-9999) 0 [] [(50, -1)] []).dataWord 50) ∧
    (machine (-9999) 0 [] [(50, -1)] []).dataWord 50 ≠ 0 ∧ (machine (-9999) 0 [] [(50, -1)] []).acc = -9999 ∧
    (machine (-9999) 0 [] [(50, -1)] []).dataWord 50 = -1 := by decide

theorem witness_OperandOutsideMemoryFaults :
    (100 ≤ (Instr.read 100).operand ∧ ∀ a, Instr.read 100 ≠ .halt a) ∧
    (100 ≤ (Instr.branchneg 100).operand ∧ (machine (-1) 0 [] [] []).acc < 0) ∧
    (100 ≤ (Instr.branchzero 100).operand ∧ (machine 0 0 [] [] []).acc = 0) :=
  ⟨⟨by decide, nofun⟩, by decide, by decide⟩
theorem witness_InstructionsWriteOnlyTheirOwn :
    (∃ t, exec (.branch 99) (machine 0 0 [] [] []) = .next t) ∧
    (∀ a, Instr.branch 99 ≠ .load a ∧ Instr.branch 99 ≠ .add a ∧ Instr.branch 99 ≠ .subtract a ∧ Instr.branch 99 ≠ .divide a ∧
      Instr.branch 99 ≠ .remainder a ∧ Instr.branch 99 ≠ .multiply a) ∧
    (∀ a, Instr.branch 99 ≠ .read a ∧ Instr.branch 99 ≠ .store a) :=
  ⟨⟨_, rfl⟩, by simp, by simp⟩
theorem witness_BookkeepingIsNeverSeen : ∃ t, step (machine 0 0 [(0, 3050)] [] []) = .next t :=
  ⟨_, rfl⟩

theorem witness_WritePortsChangeOneCell :
    storeCanonical (machine 0 0 [(0, 1007)] [(99, 7)] []).store ∧ isUnified (machine 0 0 [(0, 1007)] [(99, 7)] []).store = false ∧
    storeCanonical (unifiedMachine 0 0 [(0, 1007)] []).store ∧ isUnified (unifiedMachine 0 0 [(0, 1007)] []).store = true := by decide
theorem witness_CanonicalMemoriesAreEqual : Memory.wf ⟨[(0, 5), (99, -5)]⟩ ∧
    ∀ a, a ≤ 99 → readCell ⟨[(0, 5), (99, -5)]⟩ a = readCell ⟨[(0, 5), (99, -5)]⟩ a := ⟨by decide, fun _ _ => rfl⟩
theorem witness_SplitProgramMemoryIsConstant :
    isUnified (machine 0 0 [(0, 4000)] [] []).store = false ∧ ∃ t, runSteps 2 (machine 0 0 [(0, 4000)] [] []) = .next t :=
  ⟨rfl, _, rfl⟩
/-- A STORE into the very next Word, at the last place it can stand. -/
theorem witness_UnifiedStoreIsFetchedNext :
    (unifiedMachine 4300 98 [(98, 2199)] []).es = .running ∧ isUnified (unifiedMachine 4300 98 [(98, 2199)] []).store = true ∧
    storeCanonical (unifiedMachine 4300 98 [(98, 2199)] []).store ∧ (unifiedMachine 4300 98 [(98, 2199)] []).ip ≤ 98 ∧
    decode ((unifiedMachine 4300 98 [(98, 2199)] []).programWord 98) = .ok (.store 99) ∧
    99 = (unifiedMachine 4300 98 [(98, 2199)] []).ip + 1 := by decide
theorem witness_LoadSeesTheWordJustRead :
    (unifiedMachine 1 98 [(98, 1050), (99, 2050)] [.value (-9999)]).es = .running ∧
    storeCanonical (unifiedMachine 1 98 [(98, 1050), (99, 2050)] [.value (-9999)]).store ∧ inWord (-9999) ∧
    50 ≠ (unifiedMachine 1 98 [(98, 1050), (99, 2050)] [.value (-9999)]).ip + 1 ∧
    decode ((unifiedMachine 1 98 [(98, 1050), (99, 2050)] []).programWord 98) = .ok (.read 50) ∧
    decode ((unifiedMachine 1 98 [(98, 1050), (99, 2050)] []).programWord 99) = .ok (.load 50) := by decide

/-- A state with the invariant that no run begins in: the accumulator at a bound, the pointer at its end, the latch of the Word that
brought it there. -/
theorem machine_inv : State.Inv { machine (-9999) 100 [(99, 2000)] [(0, -9999)] [] with ir := 2000, opc := 20, opd := 0 } :=
  ⟨by decide, by decide, by decide, by decide, by decide, by decide, by decide, by decide, by decide⟩
theorem witness_StepKeepsTheInvariant :
    ∃ s t : State, s.Inv ∧ s.es = .running ∧ step s = .next t := ⟨_, _, machine_inv, rfl, rfl⟩
theorem witness_StepKeepsTheOutputOrder :
    ∃ s t : State, s.Inv ∧ s.OutputOrder ∧ s.es = .running ∧ step s = .next t :=
  ⟨_, _, machine_inv, by show ∀ e ∈ ([] : List Event), _; simp, rfl, rfl⟩
theorem witness_ResetZeroesTheRegisters : State.config { State.reset with acc := 5, es := .haltedFault } = { } := by decide
theorem witness_ReachableStatesAreGood : Reachable State.reset := .reset { } (by decide)

/-- A machine after reset, `load` of the one Word 4300 (HALT), and run start: reachable and running. -/
theorem one_halt_is_reachable : ∃ s : State, Reachable s ∧ s.es = .running ∧ s.ip = 0 ∧ s.programWord 0 = 4300 :=
  ⟨_, .launch _ _ (.load _ _ (.supply _ [.value 4300, .value (-99999)] (.reset { } (by decide))) rfl) rfl, rfl, rfl, rfl⟩
theorem witness_NormalEndShowsItsHalt : ∃ s : State, Reachable s ∧ s.es = .haltedNormal := by
  obtain ⟨s, hs, hr, hip, hw⟩ := one_halt_is_reachable
  have hd : decode (s.programWord s.ip) = .ok (.halt 0) := by rw [hip, hw]; decide
  exact ⟨(s.latch (s.programWord s.ip)).haltNormal, .step s _ hs (by
    rw [step, if_pos hr, fetchDecode_instr (by omega) hd]; rfl), rfl⟩

/-- The empty program, with an invalid candidate before the sentinel; and, under the second policy, a program of 100 Words. -/
theorem witness_LoadWritesTheProgram :
    (supplied { } [.value 10000, .value (-99999)]).es = .idle ∧
    (supplied { } [.value 10000, .value (-99999)]).loader = .notCalled ∧
    storeCanonical (supplied { } [.value 10000, .value (-99999)]).store ∧
    (supplied { } [.value 10000, .value (-99999)]).input = [.value 10000] ++ .value (-99999) :: [] ∧
    (∀ c ∈ [Candidate.value 10000], c ≠ .value (-99999)) ∧
    (supplied { loaderFull := .faultOn101stWord } (List.replicate 100 (.value 1) ++ [.value (-99999)])).config.loaderFull =
      .faultOn101stWord ∧
    (∀ c ∈ List.replicate 100 (Candidate.value 1), c ≠ .value (-99999)) := by decide
/-- Ninety-nine Words and one more, under the default policy; a hundred and one more, under the other. -/
theorem witness_LoadStopsWhenMemoryIsFull :
    (supplied { } (List.replicate 99 (.value 1) ++ [.value 9999])).es = .idle ∧
    (supplied { } (List.replicate 99 (.value 1) ++ [.value 9999])).input = List.replicate 99 (.value 1) ++ .value 9999 :: [] ∧
    (∀ c ∈ List.replicate 100 (Candidate.value 1), c ≠ .value (-99999)) ∧ inWord 9999 ∧
    (List.replicate 99 (1 : Int)).length = 99 ∧ (List.replicate 100 (1 : Int)).length = 100 ∧
    (supplied { loaderFull := .faultOn101stWord } (List.replicate 100 (.value 1) ++ [.value 9999])).config.loaderFull =
      .faultOn101stWord := by decide
theorem witness_WaitingLoadGoesOn :
    ∃ t, load (supplied { } [.value 2007]) = .next t ∧ t.loader = .loading 1 := ⟨_, rfl, rfl⟩
theorem witness_RunGuard :
    State.es { State.reset with loader := .returned (.ok 1) } = .idle ∧
    ∃ t, launch { State.reset with loader := .returned (.ok 1) } = .next t := ⟨rfl, _, rfl⟩
theorem witness_RefusedCalls :
    State.es { State.reset with es := .haltedNormal } ≠ .idle ∧ (machine 0 0 [] [] []).es = .running ∧
    State.loader { State.reset with loader := .returned .programTooLarge } = .returned .programTooLarge ∧
    State.reset.loader = .notCalled ∧ State.reset.es = .idle := by decide
theorem witness_ReportHoldsTheWholeMachine :
    isUnified State.reset.store = false ∧ isUnified (unifiedMachine 0 0 [] []).store = true := by decide
theorem witness_ReportGridShowsEveryCell : (0 : Nat) ≤ 99 ∧ (99 : Nat) ≤ 99 := by decide

end Sys2Proof.Tests
end

section
/-! SUPPORT. The machine's invariant (10_state.md R25): what each operation on the state does to it, and that `exec` and `step` keep it. -/

set_option autoImplicit false

namespace Sys2Proof.Machine

/-! ### The truncating division keeps the Word range (43_arithmetic.md R119) -/

theorem inWord_zero : inWord 0 := by decide

theorem inWord_iff_natAbs {v : Int} : inWord v ↔ v.natAbs ≤ 9999 := by
  unfold inWord; omega

theorem inWord_tdiv {v : Int} (hv : inWord v) (d : Int) : inWord (v.tdiv d) :=
  inWord_iff_natAbs.2 ((Int.natAbs_tdiv_le_natAbs v d).trans (inWord_iff_natAbs.1 hv))

theorem inWord_tmod {v : Int} (hv : inWord v) (d : Int) : inWord (v.tmod d) := by
  rw [inWord_iff_natAbs, Int.natAbs_tmod]
  exact (Nat.mod_le _ _).trans (inWord_iff_natAbs.1 hv)

/-! ### The invariant, operation by operation -/

namespace State.Inv

variable {s : State} (h : s.Inv)
include h

theorem programWord_inWord (a : Nat) : inWord (s.programWord a) :=
  readCell_inWord (h.memory _ (programOf_mem_regions s.store)).2 a

theorem dataWord_inWord (a : Nat) : inWord (s.dataWord a) :=
  readCell_inWord (h.memory _ (dataOf_mem_regions s.store)).2 a

theorem fc_eq_none (hes : s.es ≠ .haltedFault) : s.fc = none :=
  not_not.1 fun hfc => hes (h.faultLatched.1 hfc)

theorem latchWord {w : Int} (hw : inWord w) : (s.latch w).Inv :=
  { h with irWord := hw, latch := rfl }

theorem advance (hip : s.ip < 100) : s.advance.Inv :=
  { h with ipRange := hip }

theorem jump {a : Nat} (ha : a ≤ 99) : (s.jump a).Inv :=
  { h with ipRange := Nat.le_succ_of_le ha }

theorem setAcc {v : Int} (hv : inWord v) : (s.setAcc v).Inv :=
  { h with accWord := hv }

theorem emit (e : Event) : (s.emit e).Inv :=
  { h with }

theorem setInput (cs : List Candidate) : State.Inv { s with input := cs } :=
  { h with }

theorem supply (cs : List Candidate) : (s.supply cs).Inv :=
  h.setInput _

theorem writeData {a : Nat} (ha : a ≤ 99) {v : Int} (hv : inWord v) : (s.writeData a v).Inv :=
  { h with
    memory := writeDataOf_good h.memory (Nat.lt_succ_of_le ha) hv
    shape := (isUnified_writeDataOf s.store a v).trans h.shape }

theorem raiseFault (k : FaultKind) : (s.raiseFault k).Inv :=
  { h with faultLatched := by simp }

theorem haltNormal (hes : s.es ≠ .haltedFault) : s.haltNormal.Inv :=
  { h with faultLatched := by simp [h.fc_eq_none hes] }

theorem start (hes : s.es ≠ .haltedFault) : s.start.Inv :=
  { h with
    ipRange := Nat.zero_le _
    faultLatched := by simp [h.fc_eq_none hes] }

/-- Every instruction keeps the invariant, where the fetch that precedes it found a cell. -/
theorem exec {i : Instr} {t : State} (hip : s.ip < 100) (hes : s.es ≠ .haltedFault) (hx : exec i s = .next t) : t.Inv := by
  cases exec_shape hx with
  | badOperand | addFault | subtractFault | multiplyFault | divideFault | remainderFault => exact h.raiseFault _
  | halt => exact h.haltNormal hes
  | read a v rest ha hin => exact ((h.setInput rest).writeData ha (takeInput_eq_some hin).1).advance hip
  | write a => exact (h.emit _).advance hip
  | load a => exact (h.setAcc (h.dataWord_inWord a)).advance hip
  | store a ha => exact (h.writeData ha h.accWord).advance hip
  | add _ _ hr | subtract _ _ hr | multiply _ _ hr => exact (h.setAcc hr).advance hip
  | divide => exact (h.setAcc (inWord_tdiv h.accWord _)).advance hip
  | remainder => exact (h.setAcc (inWord_tmod h.accWord _)).advance hip
  | branch _ ha | branchneg _ ha | branchzero _ ha => exact h.jump ha
  | branchnegNot | branchzeroNot => exact h.advance hip

theorem step {t : State} (hx : step s = .next t) : t.Inv := by
  have hl := h.latchWord (h.programWord_inWord s.ip)
  rcases step_cases hx with ⟨-, rfl⟩ | ⟨-, -, rfl⟩ | ⟨-, -, -, rfl⟩ | ⟨hes, hip, i, -, hx⟩
  · exact h
  · exact h.raiseFault _
  · exact hl.raiseFault _
  · exact hl.exec hip (by simp [hes]) hx

end State.Inv

theorem resetOf_inv {c : Config} (hc : storeGood c.initial) : (State.resetOf c).Inv where
  accWord := inWord_zero
  memory := hc
  ipRange := Nat.zero_le _
  irWord := inWord_zero
  latch := rfl
  faultLatched := by simp [State.resetOf]
  loader := rfl
  initial := hc
  shape := rfl

/-- Settles O45: the invariant is kept by each operation a step is made of, and so by the four ways a step can go. -/
theorem stepKeepsTheInvariant : Obligations.StepKeepsTheInvariant := by
  intro s t h hx
  exact h.step hx

/-- Settles O44: the default parameters list no cell, so their memories hold Words. -/
theorem resetMeetsTheInvariant : Obligations.ResetMeetsTheInvariant :=
  resetOf_inv (c := { }) (by decide)

end Sys2Proof.Machine
end

section
/-! SUPPORT. The step as one equation per case, for a proof that runs it rather than inverts it (`step_cases`). -/

set_option autoImplicit false

namespace Sys2Proof.Machine

theorem step_outside_run {s : State} (hes : s.es ≠ .running) : step s = .next s :=
  if_neg hes

theorem step_past_end {s : State} (hes : s.es = .running) (hip : ¬ s.ip < 100) :
    step s = .next (s.raiseFault .programBoundsExceeded) := by
  rw [step, if_pos hes, fetchDecode_past_end hip]

theorem step_of_decode_error {s : State} (hes : s.es = .running) (hip : s.ip < 100) {e : DecodeReject}
    (hd : decode (s.programWord s.ip) = .error e) :
    step s = .next ((s.latch (s.programWord s.ip)).raiseFault .unknownOpcode) := by
  rw [step, if_pos hes, fetchDecode_unknown hip hd]

theorem step_of_decode_ok {s : State} (hes : s.es = .running) (hip : s.ip < 100) {i : Instr}
    (hd : decode (s.programWord s.ip) = .ok i) : step s = exec i (s.latch (s.programWord s.ip)) := by
  rw [step, if_pos hes, fetchDecode_instr hip hd]

end Sys2Proof.Machine
end

section
/-! SUPPORT. The frame of the registers (10_state.md R10 to R14), and what no program can see (R17, R21, R24). -/

set_option autoImplicit false

namespace Sys2Proof.Machine

/-! ### The frame of the registers -/

theorem exec_keeps_latch_and_bookkeeping {i : Instr} {s t : State} (h : exec i s = .next t) :
    t.ir = s.ir ∧ t.opc = s.opc ∧ t.opd = s.opd ∧ t.config = s.config ∧ t.loader = s.loader ∧ t.draws = s.draws := by
  cases exec_shape h <;> exact ⟨rfl, rfl, rfl, rfl, rfl, rfl⟩

theorem exec_keeps_acc {i : Instr} {s t : State} (h : exec i s = .next t)
    (hi : ∀ a, i ≠ .load a ∧ i ≠ .add a ∧ i ≠ .subtract a ∧ i ≠ .divide a ∧ i ≠ .remainder a ∧ i ≠ .multiply a) :
    t.acc = s.acc := by
  cases exec_shape h with
  | load a | add a | subtract a | divide a | remainder a | multiply a => simpa using hi a
  | _ => rfl

theorem exec_keeps_store {i : Instr} {s t : State} (h : exec i s = .next t) (hi : ∀ a, i ≠ .read a ∧ i ≠ .store a) :
    t.store = s.store := by
  cases exec_shape h with
  | read a | store a => simpa using hi a
  | _ => rfl

/-- Settles O36, from the list of the ways an instruction can leave the state (`exec_shape`). -/
theorem instructionsWriteOnlyTheirOwn : Obligations.InstructionsWriteOnlyTheirOwn := by
  intro i s t h
  obtain ⟨hir, hopc, hopd, hconfig, hloader, hdraws⟩ := exec_keeps_latch_and_bookkeeping h
  exact ⟨hir, hopc, hopd, hconfig, hloader, hdraws, exec_keeps_acc h, exec_keeps_store h⟩

/-! ### Noninterference -/

/-- Two states agree on everything a program can see: registers, latch, engine state, memories and input. -/
structure State.Alike (s u : State) : Prop where
  acc : u.acc = s.acc
  ip : u.ip = s.ip
  ir : u.ir = s.ir
  opc : u.opc = s.opc
  opd : u.opd = s.opd
  es : u.es = s.es
  store : u.store = s.store
  input : u.input = s.input

/-- Two outcomes are of one kind, with states that agree on what a program can see, or with the same reason. -/
inductive OutcomesAlike : Host.Outcome State Fault Refusal → Host.Outcome State Fault Refusal → Prop where
  | next {t u : State} : t.Alike u → OutcomesAlike (.next t) (.next u)
  | fault (r : Fault) : OutcomesAlike (.fault r) (.fault r)
  | refused (r : Refusal) : OutcomesAlike (.refused r) (.refused r)

namespace State.Alike

variable {s u : State} (h : s.Alike u)
include h

theorem programWord (a : Nat) : u.programWord a = s.programWord a := by
  rw [State.programWord, h.store, State.programWord]

theorem dataWord (a : Nat) : u.dataWord a = s.dataWord a := by
  rw [State.dataWord, h.store, State.dataWord]

theorem advance : s.advance.Alike u.advance :=
  { h with ip := congrArg (· + 1) h.ip }

theorem jump (a : Nat) : (s.jump a).Alike (u.jump a) :=
  { h with ip := rfl }

theorem setAcc (v : Int) : (s.setAcc v).Alike (u.setAcc v) :=
  { h with acc := rfl }

theorem latchWord (w : Int) : (s.latch w).Alike (u.latch w) :=
  { h with ir := rfl, opc := rfl, opd := rfl }

theorem emit (e f : Event) : (s.emit e).Alike (u.emit f) :=
  { h with }

theorem setInput (cs : List Candidate) : State.Alike { s with input := cs } { u with input := cs } :=
  { h with input := rfl }

theorem writeData (a : Nat) (v : Int) : (s.writeData a v).Alike (u.writeData a v) :=
  { h with store := congrArg (writeDataOf · a v) h.store }

theorem raiseFault (k l : FaultKind) : (s.raiseFault k).Alike (u.raiseFault l) :=
  { h with es := rfl }

theorem haltNormal : s.haltNormal.Alike u.haltNormal :=
  { h with es := rfl }

theorem deliverChecked {r q : Int} (hr : q = r) : (deliverChecked s r).Alike (deliverChecked u q) := by
  subst hr
  unfold Machine.deliverChecked
  split
  · exact (h.setAcc _).advance
  · exact h.raiseFault _ _

theorem deliverDivided (d : Int) (k : FaultKind) {r q : Int} (hr : q = r) :
    (deliverDivided s d k r).Alike (deliverDivided u d k q) := by
  subst hr
  unfold Machine.deliverDivided
  split
  · exact h.raiseFault _ _
  · exact (h.setAcc _).advance

theorem withAddress {a : Nat} {k l : Nat → Host.Outcome State Fault Refusal} (hk : OutcomesAlike (k a) (l a)) :
    OutcomesAlike (withAddress a s k) (withAddress a u l) := by
  by_cases ha : a ≤ 99
  · rwa [withAddress_of_le ha, withAddress_of_le ha]
  · rw [withAddress_of_gt (by omega), withAddress_of_gt (by omega)]
    exact .next (h.raiseFault _ _)

theorem withData {a : Nat} {k l : Int → State} (hk : ∀ d, (k d).Alike (l d)) :
    OutcomesAlike (withData a s k) (withData a u l) :=
  h.withAddress (h.dataWord a ▸ .next (hk _))

theorem branchIf {c b : Bool} (hc : b = c) (a : Nat) : OutcomesAlike (branchIf c a s) (branchIf b a u) := by
  subst hc
  cases b
  · exact .next h.advance
  · exact h.withAddress (.next (h.jump a))

theorem execRead (a : Nat) : OutcomesAlike (execRead a s) (execRead a u) := by
  refine h.withAddress ?_
  rw [h.input]
  cases takeInput s.input with
  | some p => exact .next ((h.setInput p.2).writeData a p.1).advance
  | none => exact .fault _

theorem exec (i : Instr) : OutcomesAlike (exec i s) (exec i u) := by
  cases i with
  | read a => exact h.execRead a
  | write a => exact h.withData fun _ => (h.emit _ _).advance
  | load a => exact h.withData fun d => (h.setAcc d).advance
  | store a =>
    have hs := (h.writeData a s.acc).advance
    exact h.withAddress (.next (by rwa [h.acc]))
  | add a => exact h.withData fun d => h.deliverChecked (by rw [h.acc])
  | subtract a => exact h.withData fun d => h.deliverChecked (by rw [h.acc])
  | multiply a => exact h.withData fun d => h.deliverChecked (by rw [h.acc])
  | divide a => exact h.withData fun d => h.deliverDivided d _ (by rw [h.acc])
  | remainder a => exact h.withData fun d => h.deliverDivided d _ (by rw [h.acc])
  | branch a => exact h.branchIf (c := true) rfl a
  | branchneg a => exact h.branchIf (by rw [accNegative, h.acc, accNegative]) a
  | branchzero a => exact h.branchIf (by rw [accZero, h.acc, accZero]) a
  | halt a => exact .next h.haltNormal

theorem step : OutcomesAlike (step s) (step u) := by
  have hw : u.programWord u.ip = s.programWord s.ip := by rw [h.ip, h.programWord]
  have hl : (s.latch (s.programWord s.ip)).Alike (u.latch (u.programWord u.ip)) := hw ▸ h.latchWord _
  by_cases hes : s.es = .running
  · have hesu : u.es = .running := h.es.trans hes
    by_cases hip : s.ip < 100
    · have hipu : u.ip < 100 := h.ip.trans_lt hip
      cases hd : decode (s.programWord s.ip) with
      | ok i =>
        rw [step_of_decode_ok hes hip hd, step_of_decode_ok hesu hipu (hw ▸ hd)]
        exact hl.exec i
      | error e =>
        rw [step_of_decode_error hes hip hd, step_of_decode_error hesu hipu (hw ▸ hd)]
        exact .next (hl.raiseFault _ _)
    · rw [step_past_end hes hip, step_past_end hesu (h.ip.symm ▸ hip)]
      exact .next (h.raiseFault _ _)
  · rw [step_outside_run hes, step_outside_run (h.es.symm ▸ hes)]
    exact .next h

end State.Alike

/-- Settles O37: the two runs agree on what a program can see, operation by operation. -/
theorem bookkeepingIsNeverSeen : Obligations.BookkeepingIsNeverSeen := by
  intro s t o f l c d hx
  have h : s.Alike { s with output := o, fc := f, loader := l, config := c, draws := d } :=
    ⟨rfl, rfl, rfl, rfl, rfl, rfl, rfl, rfl⟩
  have hs := h.step
  rw [hx] at hs
  generalize step { s with output := o, fc := f, loader := l, config := c, draws := d } = out at hs ⊢
  cases hs with
  | @next _ u hu => exact ⟨u, rfl, hu.acc, hu.ip, hu.ir, hu.opc, hu.opd, hu.es, hu.store, hu.input⟩

end Sys2Proof.Machine
end

section
/-! SUPPORT. The canonical form of a memory (log 4). -/

set_option autoImplicit false

namespace Sys2Proof.Machine

theorem lookupCell_of_mem {l : List (Nat × Int)} (hl : risingCells l) {c : Nat × Int} (hc : c ∈ l) :
    lookupCell l c.1 = c.2 := by
  induction l with
  | nil => cases hc
  | cons d rest ih =>
    obtain ⟨hd, hr⟩ := List.pairwise_cons.1 hl
    rcases List.mem_cons.1 hc with rfl | hc
    · simp [lookupCell]
    · have hlt := hd c hc
      rw [lookupCell, if_neg (Nat.lt_asymm hlt), if_neg (Nat.ne_of_gt hlt)]
      exact ih hr hc

/-- A cell that one canonical memory lists is listed by every memory that reads alike. -/
theorem cells_subset_of_reads_alike {m n : Memory} (hm : Memory.wf m) (h : ∀ a, a ≤ 99 → readCell m a = readCell n a) :
    m.cells ⊆ n.cells := by
  intro c hc
  obtain ⟨hrising, hcells⟩ := hm
  obtain ⟨haddr, hlisted⟩ := hcells c hc
  have hread : lookupCell n.cells c.1 = c.2 :=
    (h c.1 (Nat.le_of_lt_succ haddr)).symm.trans (lookupCell_of_mem hrising hc)
  rcases lookupCell_mem (l := n.cells) (a := c.1) with h0 | hmem
  · exact absurd (hread.symm.trans h0) hlisted
  · rwa [hread] at hmem

/-- Settles O39: the two memories list the same cells, and strictly rising lists with the same members are equal. -/
theorem canonicalMemoriesAreEqual : Obligations.CanonicalMemoriesAreEqual := by
  intro m n hm hn h
  have : Std.Antisymm (fun x y : Nat × Int => x.1 < y.1) := ⟨fun _ _ hxy hyx => absurd hxy (Nat.lt_asymm hyx)⟩
  have : Std.Irrefl (fun x y : Nat × Int => x.1 < y.1) := ⟨fun _ => Nat.lt_irrefl _⟩
  have hcells : m.cells = n.cells := List.Subset.antisymm_of_pairwise hm.1 hn.1
    (cells_subset_of_reads_alike hm h) (cells_subset_of_reads_alike hn fun a ha => (h a ha).symm)
  exact congrArg Memory.mk hcells

end Sys2Proof.Machine
end

section
/-! SUPPORT. The invariant and the output order (45_host_interface.md R151) along every way to reach a state. -/

set_option autoImplicit false

namespace Sys2Proof.Machine

/-! ### The invariant along the host's calls -/

@[simp] theorem State.runLoader_es (s : State) (la : Nat) : (s.runLoader la).es = s.es := rfl
@[simp] theorem State.runLoader_output (s : State) (la : Nat) : (s.runLoader la).output = s.output := rfl

/-- The loader at work keeps the invariant: what it does to the memories is `loadLoop_good`. -/
theorem State.Inv.runLoader {s : State} (h : s.Inv) {la : Nat} (hla : la ≤ 100) : (s.runLoader la).Inv := by
  obtain ⟨hloader, hstore, hshape⟩ := loadLoop_good (p := s.config.loaderFull) s.input la s.store hla h.memory
  exact { h with
    memory := hstore
    ipRange := Nat.le_of_lt_succ (Config.ipAfterLoad s.draws).isLt
    loader := hloader
    shape := hshape.trans h.shape }

theorem State.Inv.load {s t : State} (h : s.Inv) (hx : load s = .next t) : t.Inv := by
  obtain ⟨-, ⟨-, rfl⟩ | ⟨la, hla, rfl⟩⟩ := load_cases hx
  · exact h.runLoader (Nat.zero_le _)
  · exact h.runLoader (by simpa [hla, loaderInRange] using h.loader)

theorem State.Inv.launch {s t : State} (h : s.Inv) (hx : launch s = .next t) : t.Inv := by
  obtain ⟨hes, rfl, -⟩ := launch_cases hx
  exact h.start (by simp [hes])

/-! ### The output order (45_host_interface.md R151) -/

theorem outputOrder_idle {s : State} (hes : s.es = .idle) : s.OutputOrder ↔ s.output = [] := by
  simp [State.OutputOrder, hes]

theorem outputOrder_running {s : State} (hes : s.es = .running) : s.OutputOrder ↔ ∀ e ∈ s.output, isOutOfWord e = true := by
  simp [State.OutputOrder, hes]

/-- A fatal fault ends the trace of a run as R151 says. -/
theorem raiseFault_outputOrder {s : State} (hout : ∀ e ∈ s.output, isOutOfWord e = true) (k : FaultKind) :
    (s.raiseFault k).OutputOrder :=
  ⟨s.output, hout, List.append_assoc _ _ _⟩

/-- So does a normal end. -/
theorem haltNormal_outputOrder {s : State} (hout : ∀ e ∈ s.output, isOutOfWord e = true) : s.haltNormal.OutputOrder :=
  ⟨s.output, hout, List.append_assoc _ _ _⟩

/-- An instruction ends the run by a fault, or ends it normally, or lets it go on with at most one data Word put out. -/
theorem exec_ends_or_emits {i : Instr} {s t : State} (h : exec i s = .next t) :
    (∃ k, t = s.raiseFault k) ∨ t = s.haltNormal ∨
    (t.es = s.es ∧ (t.output = s.output ∨ ∃ a, t.output = s.output ++ [.out (s.dataWord a)])) := by
  cases exec_shape h with
  | badOperand | addFault | subtractFault | multiplyFault | divideFault | remainderFault => exact .inl ⟨_, rfl⟩
  | halt => exact .inr (.inl rfl)
  | write a => exact .inr (.inr ⟨rfl, .inr ⟨a, rfl⟩⟩)
  | _ => exact .inr (.inr ⟨rfl, .inl rfl⟩)

theorem exec_keeps_outputOrder {i : Instr} {s t : State} (hInv : s.Inv) (hes : s.es = .running)
    (hout : ∀ e ∈ s.output, isOutOfWord e = true) (hx : exec i s = .next t) : t.OutputOrder := by
  obtain ⟨k, rfl⟩ | rfl | ⟨hes', htrace⟩ := exec_ends_or_emits hx
  · exact raiseFault_outputOrder hout k
  · exact haltNormal_outputOrder hout
  · rw [outputOrder_running (hes'.trans hes)]
    obtain hsame | ⟨a, hemit⟩ := htrace
    · rwa [hsame]
    · have hword : isOutOfWord (.out (s.dataWord a)) = true := decide_eq_true (hInv.dataWord_inWord a)
      simpa [hemit, or_imp, forall_and] using ⟨hout, hword⟩

theorem step_keeps_outputOrder {s t : State} (hInv : s.Inv) (h : s.OutputOrder) (hx : step s = .next t) : t.OutputOrder := by
  rcases step_cases hx with ⟨-, rfl⟩ | ⟨hes, -, rfl⟩ | ⟨hes, -, -, rfl⟩ | ⟨hes, -, i, -, hx⟩
  · exact h
  · exact raiseFault_outputOrder ((outputOrder_running hes).1 h) _
  · exact raiseFault_outputOrder (s := s.latch _) ((outputOrder_running hes).1 h) _
  · exact exec_keeps_outputOrder (hInv.latchWord (hInv.programWord_inWord s.ip)) hes ((outputOrder_running hes).1 h) hx

theorem runLoader_keeps_outputOrder {s : State} (hes : s.es = .idle) (h : s.OutputOrder) (la : Nat) :
    (s.runLoader la).OutputOrder := by
  simpa [outputOrder_idle, hes] using h

theorem load_keeps_outputOrder {s t : State} (h : s.OutputOrder) (hx : load s = .next t) : t.OutputOrder := by
  obtain ⟨hes, ⟨-, rfl⟩ | ⟨la, -, rfl⟩⟩ := load_cases hx
  · exact runLoader_keeps_outputOrder hes h 0
  · exact runLoader_keeps_outputOrder hes h la

/-- A run starts with an empty trace. -/
theorem launch_keeps_outputOrder {s t : State} (h : s.OutputOrder) (hx : launch s = .next t) : t.OutputOrder := by
  obtain ⟨hes, rfl, -⟩ := launch_cases hx
  rw [outputOrder_running s.start_es, State.start_output, (outputOrder_idle hes).1 h]
  simp

/-- Settles O47, by induction on how the state is reached: reset makes an invariant state, and every call and step keeps it. -/
theorem reachableStatesAreGood : Obligations.ReachableStatesAreGood := by
  intro s hs
  induction hs with
  | reset c hc => exact ⟨resetOf_inv hc, rfl⟩
  | restart s _ ih => exact ⟨resetOf_inv ih.1.initial, rfl⟩
  | supply s cs _ ih => exact ⟨ih.1.supply cs, ih.2⟩
  | load s t _ hx ih => exact ⟨ih.1.load hx, load_keeps_outputOrder ih.2 hx⟩
  | launch s t _ hx ih => exact ⟨ih.1.launch hx, launch_keeps_outputOrder ih.2 hx⟩
  | step s t _ hx ih => exact ⟨ih.1.step hx, step_keeps_outputOrder ih.1 ih.2 hx⟩

end Sys2Proof.Machine
end

section
/-! SUPPORT. The memory ports and the configurations along a run (20_memory.md R32, R33, R39, R42, R43). -/

set_option autoImplicit false

namespace Sys2Proof.Machine

/-! ### What steps keep (R42) -/

/-- What every step keeps, a run of any length keeps. -/
theorem runSteps_keeps {P : State → Prop} (hstep : ∀ s t, P s → step s = .next t → P t) {n : Nat} {s t : State} (h : P s)
    (hx : runSteps n s = .next t) : P t := by
  induction n generalizing s with
  | zero => cases hx; exact h
  | succ n ih =>
    obtain ⟨u, hu, hx⟩ := runSteps_succ_eq_next s hx
    exact ih (hstep s u h hu) hx

/-- The machine is split and its program memory is `pm`. -/
def State.HasSplitProgram (pm : Memory) (s : State) : Prop := isUnified s.store = false ∧ programOf s.store = pm

theorem State.HasSplitProgram.writeData {pm : Memory} {s : State} (h : s.HasSplitProgram pm) (a : Nat) (v : Int) :
    (s.writeData a v).HasSplitProgram pm :=
  ⟨(isUnified_writeDataOf s.store a v).trans h.1, (programOf_writeDataOf_split h.1 a v).trans h.2⟩

/-- The only instructions that write memory, READ and STORE, write it through the data port. -/
theorem State.HasSplitProgram.exec {pm : Memory} {i : Instr} {s t : State} (h : s.HasSplitProgram pm)
    (hx : exec i s = .next t) : t.HasSplitProgram pm := by
  cases exec_shape hx with
  | read a v rest => exact h.writeData a v
  | store a => exact h.writeData a s.acc
  | _ => exact h

theorem State.HasSplitProgram.step {pm : Memory} {s t : State} (h : s.HasSplitProgram pm) (hx : step s = .next t) :
    t.HasSplitProgram pm := by
  rcases step_cases hx with ⟨-, rfl⟩ | ⟨-, -, rfl⟩ | ⟨-, -, -, rfl⟩ | ⟨-, -, i, -, hx⟩
  · exact h
  · exact h
  · exact h
  · exact State.HasSplitProgram.exec (s := s.latch _) h hx

/-- Settles O40: a step writes memory only through the data port, which is another array than program memory; induction on the
number of steps. -/
theorem splitProgramMemoryIsConstant : Obligations.SplitProgramMemoryIsConstant := by
  intro n s t hs hx
  obtain ⟨hsplit, hpm⟩ : t.HasSplitProgram (programOf s.store) := runSteps_keeps (fun _ _ h => h.step) ⟨hs, rfl⟩ hx
  exact ⟨hsplit, hpm, fun a => congrArg (readCell · a) hpm⟩

/-! ### An operand outside 0..99 (R39, D7) -/

theorem branchIf_of_gt {c : Bool} (hc : c = true) {a : Nat} (h : 99 < a) (s : State) :
    branchIf c a s = .next (s.raiseFault .unknownOpcode) := by
  subst hc
  exact withAddress_of_gt h s _

/-- Settles O35: every meaning but HALT's and that of a branch not taken asks for the operand's address first. -/
theorem operandOutsideMemoryFaults : Obligations.OperandOutsideMemoryFaults := by
  intro i s hop hhalt hneg hzero
  rw [← State.raiseFault_eq_faulted]
  cases i with
  | halt a => exact absurd rfl (hhalt a)
  | branch a => exact branchIf_of_gt rfl hop s
  | branchneg a => exact branchIf_of_gt (decide_eq_true (hneg ⟨a, rfl⟩)) hop s
  | branchzero a => exact branchIf_of_gt (decide_eq_true (hzero ⟨a, rfl⟩)) hop s
  | _ => exact withAddress_of_gt hop s _

/-! ### The write ports (R32, R33) -/

section
variable {s : State} (hs : storeCanonical s.store)
include hs

theorem State.writeProgram_programWord_same (a : Nat) (v : Int) : (s.writeProgram a v).programWord a = v := by
  rw [State.programWord, State.writeProgram_store, programOf_writeProgramOf]
  exact readCell_write_same (hs _ (programOf_mem_regions s.store)) a v

theorem State.writeProgram_programWord_other {a b : Nat} (v : Int) (hb : b ≠ a) :
    (s.writeProgram a v).programWord b = s.programWord b := by
  rw [State.programWord, State.writeProgram_store, programOf_writeProgramOf]
  exact readCell_write_other (hs _ (programOf_mem_regions s.store)) v hb

end

theorem State.writeProgram_dataWord_split {s : State} (h : isUnified s.store = false) (a : Nat) (v : Int) (b : Nat) :
    (s.writeProgram a v).dataWord b = s.dataWord b :=
  congrArg (readCell · b) (dataOf_writeProgramOf_split h a v)

theorem State.dataWord_eq_programWord_unified {s : State} (h : isUnified s.store = true) (b : Nat) :
    s.dataWord b = s.programWord b :=
  congrArg (readCell · b) (programOf_eq_dataOf_unified h).symm

/-- Settles O38, from the laws of the two writes on a store. -/
theorem writePortsChangeOneCell : Obligations.WritePortsChangeOneCell := by
  intro s a v ha hs
  have hmem : inMemory a := Nat.lt_succ_of_le ha
  refine ⟨storedAt_writeDataOf hs a v, writeDataOf_canonical hs hmem v, writeProgramOf_canonical hs hmem v,
    State.writeProgram_programWord_same hs a v, fun b hb => State.writeProgram_programWord_other hs v hb,
    fun hsplit => State.writeProgram_dataWord_split hsplit a v, fun huni => ?_⟩
  exact State.dataWord_eq_programWord_unified (by simpa using huni)

/-! ### A STORE and the fetch that follows it, where the memories are one (R43, D15) -/

/-- The operand of whatever decodes is an address (30_encoding.md R57). -/
theorem operand_le_of_decode {w : Int} {i : Instr} (h : decode w = .ok i) : i.operand ≤ 99 := by
  obtain ⟨-, hop⟩ := decode_eq_ok.1 h
  have hlt : w.tmod 100 < 100 := Int.tmod_lt_of_pos w (by decide)
  simp only [codecDecode] at hop
  omega

theorem exec_store_of_le {a : Nat} (h : a ≤ 99) (s : State) : exec (.store a) s = .next (s.writeData a s.acc).advance :=
  withAddress_of_le h s _

/-- A step that fetches leaves the Word fetched in the latch, however it ends (40_cycle.md R73). -/
theorem step_latches_fetched_word {s t : State} (hes : s.es = .running) (hip : s.ip < 100) (hx : step s = .next t) :
    t.ir = s.programWord s.ip := by
  rcases step_cases hx with ⟨hn, -⟩ | ⟨-, hn, -⟩ | ⟨-, -, -, rfl⟩ | ⟨-, -, i, -, hx⟩
  · exact absurd hes hn
  · exact absurd hip hn
  · rfl
  · exact (exec_keeps_latch_and_bookkeeping hx).1

/-- Where the memories are one, the fetch sees what the data port wrote. -/
theorem StoredAt.programWord_unified {s t : State} {a : Nat} {v : Int} (h : StoredAt s.store t.store a v)
    (hu : isUnified s.store = true) : t.programWord a = v ∧ ∀ b, b ≠ a → t.programWord b = s.programWord b := by
  have ht : isUnified t.store = true := h.shape.trans hu
  simp only [← State.dataWord_eq_programWord_unified hu, ← State.dataWord_eq_programWord_unified ht]
  exact ⟨h.cell, h.others⟩

/-- A step that does not find the machine blocked in a READ fetches, and latches what it fetches. -/
theorem step_fetches_unless_blocked {s : State} (hes : s.es = .running) (hip : s.ip < 100) (hw : ¬ s.WaitsInRead) :
    ∃ u, step s = .next u ∧ u.ir = s.programWord s.ip := by
  obtain ⟨u, hu⟩ | ⟨hwait, -⟩ := step_next_or_stuck s
  · exact ⟨u, hu, step_latches_fetched_word hes hip hu⟩
  · exact absurd hwait hw

theorem step_of_decode_store {s : State} (hes : s.es = .running) (hip : s.ip < 100) {a : Nat}
    (hd : decode (s.programWord s.ip) = .ok (.store a)) :
    step s = .next ((s.latch (s.programWord s.ip)).writeData a s.acc).advance :=
  (step_of_decode_ok hes hip hd).trans (exec_store_of_le (operand_le_of_decode hd) _)

/-- Settles O41: the STORE writes the one array, and the next step latches what it fetches from there, or is a READ that is blocked. -/
theorem unifiedStoreIsFetchedNext : Obligations.UnifiedStoreIsFetchedNext := by
  intro s a hes huni hcanon hip hdec
  have hstep := step_of_decode_store hes (by omega) hdec
  generalize ht : ((s.latch (s.programWord s.ip)).writeData a s.acc).advance = t at hstep
  have htes : t.es = .running := by simpa [← ht] using hes
  have htip : t.ip = s.ip + 1 := by simp [← ht]
  have hstored : StoredAt s.store t.store a s.acc := by simpa [← ht] using storedAt_writeDataOf hcanon a s.acc
  obtain ⟨hcell, hothers⟩ := hstored.programWord_unified huni
  refine ⟨t, hstep, by simp [← ht], htip, hcell, hothers, fun hnext => ?_⟩
  have hfetch : t.programWord t.ip = s.acc := by rw [htip, ← hnext, hcell]
  rw [State.blockedInRead_ir, ← hfetch]
  exact ⟨step_fetches_unless_blocked htes (by omega), fun _ => rfl⟩

end Sys2Proof.Machine
end

section
/-! SUPPORT. The proofs of the codec's statements (30_encoding.md R52 to R57): the two round trips of the fields, and from them what
decodes and what is rejected. -/

set_option autoImplicit false

namespace Sys2Proof

/-! ### The two round trips (R54) -/

/-- Two decimal digits and a number above them, with no sign to carry, are found again. -/
theorem codecDecode_codecEncode {o a : Int} (ho : 0 ≤ o) (ha : 0 ≤ a) (ha' : a ≤ 99) :
    codecDecode (codecEncode o a) = (o, a) := by
  have hw : 0 ≤ codecEncode o a := by unfold codecEncode; omega
  rw [codecDecode_of_nonneg hw, codecEncode, Prod.mk.injEq]
  omega

theorem codecEncode_codecDecode (w : Int) : codecEncode (codecDecode w).1 (codecDecode w).2 = w :=
  Int.tdiv_mul_add_tmod w 100

theorem codecDecode_injective : Function.Injective codecDecode :=
  Function.LeftInverse.injective (g := Function.uncurry codecEncode) codecEncode_codecDecode

theorem codecDecode_encode {i : Instr} (h : i.WellFormed) : codecDecode (encode i) = (i.opcode, (i.operand : Int)) := by
  have ho := opcode_range i
  exact codecDecode_codecEncode (by omega) (by omega) (by exact_mod_cast h)

/-- Settles O3: the two fields of the Word are the opcode and the operand, and the opcode map is one to one. -/
theorem decodeOfEncode : Obligations.DecodeOfEncode := by
  intro i h
  rw [decode_eq_ok, codecDecode_encode h]
  exact ⟨rfl, rfl⟩

/-! ### The Words that decode (R55, R57) -/

/-- The two fields of a Word, by its sign, with one equation a field. -/
theorem tdiv_tmod_by_sign (w : Int) :
    (0 ≤ w ∧ w.tdiv 100 = w / 100 ∧ w.tmod 100 = w % 100) ∨
    (w < 0 ∧ w.tdiv 100 = -((-w) / 100) ∧ w.tmod 100 = -((-w) % 100)) := by
  simpa only [codecDecode, Prod.mk.injEq] using codecDecode_cases w

/-- A negative operand comes from a negative Word, and so with an opcode that is not above 0. -/
theorem tdiv_nonpos_of_tmod_neg {w : Int} (h : w.tmod 100 < 0) : w.tdiv 100 ≤ 0 := by
  obtain ⟨hw, -, hopd⟩ | ⟨hw, hopc, -⟩ := tdiv_tmod_by_sign w
  · omega
  · omega

/-- What decodes to an instruction is its encoding, and nothing else. -/
theorem decode_eq_ok_iff_encode {w : Int} {i : Instr} : decode w = .ok i ↔ i.WellFormed ∧ w = encode i := by
  constructor
  · intro h
    obtain ⟨hopc, hopd⟩ := decode_eq_ok.1 h
    have ho := opcode_range i
    have hnonneg : 0 ≤ (codecDecode w).2 := Int.not_lt.1 fun hneg => by
      have hle : (codecDecode w).1 ≤ 0 := tdiv_nonpos_of_tmod_neg hneg
      omega
    refine ⟨Machine.operand_le_of_decode h, ?_⟩
    rw [encode, hopc, hopd, Int.toNat_of_nonneg hnonneg, codecEncode_codecDecode]
  · rintro ⟨hi, rfl⟩
    exact decodeOfEncode i hi

/-- Settles O4: the Word of each row of the opcode table is the encoding of the instruction. -/
theorem wordsOfEachInstruction : Obligations.WordsOfEachInstruction := by
  intro w i _
  rw [decode_eq_ok_iff_encode]
  cases i <;> exact Iff.rfl

/-- Settles O1: the fields by the sign of the Word; what decodes is an encoding, whose second field is the operand. -/
theorem codecTruncatesTowardZero : Obligations.CodecTruncatesTowardZero := by
  refine ⟨fun w _ => ⟨rfl, codecDecode_of_nonneg, fun hw => ?_, fun i hi => ?_⟩, by decide⟩
  · obtain rfl | hneg := hw.eq_or_lt
    · rfl
    · exact codecDecode_of_neg hneg
  · obtain ⟨hwf, rfl⟩ := decode_eq_ok_iff_encode.1 hi
    exact (congrArg Prod.snd (codecDecode_encode hwf)).symm

/-- Settles O2: the round trips, one for opcodes that are not negative and one for every Word; the second makes decode injective. -/
theorem codecRoundTrip : Obligations.CodecRoundTrip := by
  refine ⟨fun o ho a ha ha' => ?_, fun w _ => codecEncode_codecDecode w, fun _ _ _ _ h => codecDecode_injective h, by decide⟩
  have hpos : 0 ≤ o := by rw [mem_legalOpcodes] at ho; omega
  exact codecDecode_codecEncode hpos ha ha'

/-! ### The Words that are rejected (R56) -/

theorem decode_eq_error_iff {w : Int} :
    decode w = .error (.unknownOpcode (codecDecode w).1 (codecDecode w).2) ↔ (codecDecode w).1 ∉ legalOpcodes := by
  rw [← instrOfOpcode_eq_none (a := (codecDecode w).2.toNat), decode]
  cases instrOfOpcode (codecDecode w).1 (codecDecode w).2.toNat <;> simp

/-- The legal Words, as ranges. -/
theorem tdiv_mem_legalOpcodes_iff {w : Int} :
    w.tdiv 100 ∈ legalOpcodes ↔
      (1000 ≤ w ∧ w ≤ 1199) ∨ (2000 ≤ w ∧ w ≤ 2199) ∨ (3000 ≤ w ∧ w ≤ 3499) ∨ (4000 ≤ w ∧ w ≤ 4399) := by
  rw [mem_legalOpcodes]
  obtain ⟨hw, hopc, -⟩ | ⟨hw, hopc, -⟩ := tdiv_tmod_by_sign w
  · omega
  · omega

/-- Settles O5: the ranges of the illegal Words are the complement of those of the legal ones. -/
theorem illegalWordsAreRejected : Obligations.IllegalWordsAreRejected := by
  intro w _
  refine decode_eq_error_iff.trans ((not_congr tdiv_mem_legalOpcodes_iff).trans ?_)
  omega

/-- Every legal opcode makes an instruction with any operand. -/
theorem exists_instr_of_mem_legalOpcodes {o : Int} (ho : o ∈ legalOpcodes) (a : Nat) : ∃ i : Instr, i.opcode = o ∧ i.operand = a := by
  obtain ⟨i, hi⟩ := Option.ne_none_iff_exists'.1 (fun h => instrOfOpcode_eq_none (a := a).1 h ho)
  exact ⟨i, instrOfOpcode_eq_some.1 hi⟩

/-- Settles O6: the legal Words lie above 0, where the operand is not negative; and each operand of a legal opcode makes an
instruction, whose encoding decodes. -/
theorem legalOpcodeHasAddress : Obligations.LegalOpcodeHasAddress := by
  intro w _
  refine ⟨fun hlegal => ?_, fun hneg => ?_, fun o ho a ha => ?_⟩
  · have hrange := tdiv_mem_legalOpcodes_iff.1 hlegal
    have hopd : w.tmod 100 = w % 100 := Int.tmod_eq_emod_of_nonneg (by omega)
    omega
  · have hopc := tdiv_nonpos_of_tmod_neg hneg
    exact ⟨hopc, by rw [mem_legalOpcodes]; omega⟩
  · obtain ⟨i, rfl, rfl⟩ := exists_instr_of_mem_legalOpcodes ho a
    exact ⟨i, decodeOfEncode i ha, rfl⟩

/-- Settles O7: each of the five Words is the encoding of its instruction. -/
theorem knownWordsDecode : Obligations.KnownWordsDecode :=
  ⟨decodeOfEncode (.read 7) (by decide), decodeOfEncode (.store 7) (by decide), decodeOfEncode (.multiply 99) (by decide),
    decodeOfEncode (.branchzero 3) (by decide), decodeOfEncode (.halt 0) (by decide)⟩

end Sys2Proof
end

section
/-! SUPPORT. The proofs of the cycle's statements (40_cycle.md R70 to R76): which cycles run, what they execute, and where `ip` is
at their end. -/

set_option autoImplicit false

namespace Sys2Proof.Machine

/-! ### The end of a cycle (R76) -/

/-- Whatever ends the run leaves `ip` where it was. -/
theorem exec_goes_on_or_keeps_ip {i : Instr} {s t : State} (hes : s.es = .running) (hx : exec i s = .next t) :
    t.es = .running ∨ (t.ip = s.ip ∧ (t.es = .haltedFault ∨ t.es = .haltedNormal)) := by
  obtain ⟨k, rfl⟩ | rfl | ⟨hsame, -⟩ := exec_ends_or_emits hx
  · exact .inr ⟨rfl, .inl rfl⟩
  · exact .inr ⟨rfl, .inr rfl⟩
  · exact .inl (hsame.trans hes)

/-- The handler of HALT ends the run normally, and no other handler does (44_control.md R134). -/
theorem exec_haltedNormal_iff {i : Instr} {s t : State} (hes : s.es = .running) (hx : exec i s = .next t) :
    t.es = .haltedNormal ↔ ∃ a, i = .halt a := by
  cases exec_shape hx with
  | badOperand i _ hhalt => simpa using hhalt
  | halt a => simp
  | _ => simp [hes]

/-- Settles O13: a cycle that ends before any handler is a fault, which keeps `ip`; else each way the decoded instruction can leave
the state (`exec_shape`) is a line of the table. -/
theorem ipMovesByTheTable : Obligations.IpMovesByTheTable := by
  intro s t hes hx
  rcases step_cases hx with ⟨hn, -⟩ | ⟨-, hip, rfl⟩ | ⟨-, hip, ⟨e, hd⟩, rfl⟩ | ⟨-, hip, i, hd, hx⟩
  · exact absurd hes hn
  · simp [hip]
  · simp [hip, hd]
  · have hop : i.operand ≤ 99 := operand_le_of_decode hd
    have hrun : (s.latch (s.programWord s.ip)).es = .running := hes
    have hnofault : s.es ≠ .haltedFault := by simp [hes]
    have hends := exec_goes_on_or_keeps_ip hrun hx
    refine ⟨hends, by simp [hip, hd, exec_haltedNormal_iff hrun hx], ?_⟩
    rw [if_pos hip, hd]
    cases exec_shape hx with
    | badOperand _ hbad => omega
    | addFault | subtractFault | multiplyFault | divideFault | remainderFault => exact (if_pos rfl).symm
    | add | subtract | multiply | divide | remainder => exact (if_neg hnofault).symm
    | branchneg _ _ hacc | branchzero _ _ hacc => exact (if_pos hacc).symm
    | branchnegNot _ hacc | branchzeroNot _ hacc => exact (if_neg hacc).symm
    | halt | read | write | load | store | branch => rfl

/-! ### The parts of a cycle (R70 to R75) -/

/-- Settles O8: both outcomes of decode go on from the latched state, and fault termination keeps the latch. -/
theorem stepRunsDecodedInstruction : Obligations.StepRunsDecodedInstruction := by
  intro s hes hip
  exact ⟨fun i hd => step_of_decode_ok hes hip hd, fun e hd => ⟨_, step_of_decode_error hes hip hd, rfl, rfl, rfl, rfl⟩⟩

/-- Settles O10: the bounds check fails before anything is fetched, and fault termination is one record update. -/
theorem runningOffTheEndFaults : Obligations.RunningOffTheEndFaults := by
  intro s hes hip
  rw [step_past_end hes (Nat.not_lt.2 hip), State.raiseFault_eq_faulted]

/-- Settles O11: outside a run a step answers the state itself, which is then not Running. -/
theorem noCycleOutsideARun : Obligations.NoCycleOutsideARun := by
  refine fun s => ⟨step_outside_run, fun t hx ht => ?_⟩
  by_contra hn
  cases (step_outside_run hn).symm.trans hx
  exact hn ht

end Sys2Proof.Machine
end

section
/-! SUPPORT. The proofs of the statements on input and output (41_io.md R90 to R93): which candidates READ rejects, what READ and WRITE
do, the READ that waits, and who reaches the two ports. -/

set_option autoImplicit false

namespace Sys2Proof.Machine

/-! ### READ and WRITE (R90, R91, R92) -/

/-- The candidates that READ rejects (45_host_interface.md R148). -/
theorem validForRead_eq_none {c : Candidate} :
    validForRead c = none ↔ c = .unparsable ∨ ∃ x, c = .value x ∧ (x < -9999 ∨ 9999 < x) := by
  cases c with
  | unparsable => simp [validForRead]
  | value x => simp [validForRead, imp_iff_not_or]

theorem exec_read_of_valid {a : Nat} (ha : a ≤ 99) {s : State} {v : Int} {rest : List Candidate}
    (hin : takeInput s.input = some (v, rest)) :
    exec (.read a) s = .next (State.writeData { s with input := rest } a v).advance := by
  rw [exec_read_of_le ha, hin]

theorem exec_read_of_no_valid {a : Nat} (ha : a ≤ 99) {s : State} (hin : takeInput s.input = none) :
    exec (.read a) s = .fault .stuckInRead := by
  rw [exec_read_of_le ha, hin]

theorem exec_write_of_le {a : Nat} (ha : a ≤ 99) (s : State) :
    exec (.write a) s = .next (s.emit (.out (s.dataWord a))).advance :=
  withData_of_le ha s fun v => (s.emit (.out v)).advance

/-- Settles O17: the input transaction rejects the candidates before the first valid one, which the data port then stores. -/
theorem readStoresFirstValidCandidate : Obligations.ReadStoresFirstValidCandidate := by
  intro a s bad rest v ha hcanon hbad hlo hhi hin
  have htake : takeInput s.input = some (v, rest) := by
    rw [hin, takeInput_append_invalid (fun c hc => validForRead_eq_none.2 (hbad c hc)), takeInput_cons_valid ⟨hlo, hhi⟩]
  exact ⟨decodeOfEncode (.read a) ha, writeDataOf s.store a v, exec_read_of_valid ha htake, storedAt_writeDataOf hcanon a v⟩

/-- Settles O18: where every candidate is rejected, the input transaction answers nothing. -/
theorem readWaitsForInput : Obligations.ReadWaitsForInput := by
  intro a s ha hbad
  exact exec_read_of_no_valid ha (takeInput_eq_none.2 fun c hc => validForRead_eq_none.2 (hbad c hc))

/-- Settles O20: the operand is an address, and WRITE is the output port and the advance. -/
theorem writeEmitsDataWord : Obligations.WriteEmitsDataWord := by
  intro a s ha
  exact ⟨decodeOfEncode (.write a) ha, exec_write_of_le ha s⟩

/-! ### The READ that waits (R91, 40_cycle.md R78) -/

namespace State.WaitsInRead

variable {s : State} (h : s.WaitsInRead)
include h

theorem es_running : s.es = .running := by
  obtain ⟨hes, -⟩ := h
  exact hes

theorem fetches_read : ∃ a, decode (s.programWord s.ip) = .ok (.read a) := by
  obtain ⟨-, -, hread, -⟩ := h
  exact hread

theorem not_ended : ¬ s.Ended := by
  simp [State.Ended, h.es_running]

theorem step_eq_stuck : step s = .fault .stuckInRead := by
  obtain ⟨hes, hip, ⟨a, hd⟩, hin⟩ := h
  rw [step_of_decode_ok hes hip hd]
  exact exec_read_of_no_valid (operand_le_of_decode hd) hin

theorem runSteps_eq_stuck (n : Nat) : runSteps (n + 1) s = .fault .stuckInRead := by
  rw [runSteps, h.step_eq_stuck]

/-- The fetched Word is a READ (30_encoding.md R55). -/
theorem opcode_eq_ten : (s.programWord s.ip).tdiv 100 = 10 := by
  obtain ⟨a, hd⟩ := h.fetches_read
  exact (decode_eq_ok.1 hd).1.symm

/-- What comes behind the rejected candidates is all that the input transaction sees. -/
theorem takeInput_supply (cs : List Candidate) : takeInput (s.supply cs).input = takeInput cs := by
  obtain ⟨-, -, -, hin⟩ := h
  exact takeInput_append_invalid (takeInput_eq_none.1 hin) cs

theorem supply_invalid {cs : List Candidate} (hcs : ∀ c ∈ cs, validForRead c = none) : (s.supply cs).WaitsInRead := by
  have hin := (h.takeInput_supply cs).trans (takeInput_eq_none.2 hcs)
  obtain ⟨hes, hip, hread, -⟩ := h
  exact ⟨hes, hip, hread, hin⟩

theorem blockedInRead : s.blockedInRead.WaitsInRead := by
  obtain ⟨hes, hip, hread, -⟩ := h
  exact ⟨hes, hip, hread, rfl⟩

/-- A READ that was blocked completes with the first valid candidate. -/
theorem step_supply_valid {a : Nat} (hd : decode (s.programWord s.ip) = .ok (.read a)) {v : Int} (hv : inWord v)
    (rest : List Candidate) :
    step (s.supply (.value v :: rest)) = .next (State.writeData { s.fetched with input := rest } a v).advance := by
  have htake := (h.takeInput_supply (.value v :: rest)).trans (takeInput_cons_valid hv rest)
  obtain ⟨hes, hip, -, -⟩ := h
  rw [step_of_decode_ok (s := s.supply _) hes hip hd]
  exact exec_read_of_valid (operand_le_of_decode hd) htake

end State.WaitsInRead

/-- Settles O19: the rejected candidates add nothing to the input transaction, so only a valid one ends the wait; and the blocked
machine waits in the same READ, so that it completes in the same state. -/
theorem waitingReadNeverProceeds : Obligations.WaitingReadNeverProceeds := by
  intro s h
  refine ⟨h.runSteps_eq_stuck, h.not_ended, fun cs hcs => ?_, ⟨rfl, h.opcode_eq_ten, h.blockedInRead⟩, fun v rest hv hcanon => ?_⟩
  · have hwait := h.supply_invalid fun c hc => validForRead_eq_none.2 (hcs c hc)
    exact ⟨hwait, hwait.step_eq_stuck⟩
  · obtain ⟨a, hd⟩ := h.fetches_read
    exact ⟨_, a, hd, h.step_supply_valid hd hv rest, h.blockedInRead.step_supply_valid hd hv rest, rfl, rfl, h.es_running,
      storedAt_writeDataOf hcanon a v⟩

/-! ### The ports to the outside (R93) -/

theorem exec_keeps_input {i : Instr} {s t : State} (hx : exec i s = .next t) (hi : ∀ a, i ≠ .read a) : t.input = s.input := by
  cases exec_shape hx with
  | read a => exact absurd rfl (hi a)
  | _ => rfl

/-- Settles O21: each way an instruction can leave the state (`exec_shape`) is a fault, the normal end, WRITE's one event, or none. -/
theorem portsReachedOnlyByReadAndWrite : Obligations.PortsReachedOnlyByReadAndWrite := by
  intro i s t hes hx
  refine ⟨exec_keeps_input hx, ?_⟩
  cases exec_shape hx with
  | badOperand | addFault | subtractFault | multiplyFault | divideFault | remainderFault =>
    exact .inr (.inr (.inr ⟨rfl, s.dump, List.append_assoc _ _ _⟩))
  | halt => exact .inr (.inr (.inl ⟨rfl, s.dump, List.append_assoc _ _ _⟩))
  | write a => exact .inl ⟨a, s.dataWord a, rfl, hes, rfl⟩
  | _ => exact .inr (.inl ⟨by simp, hes, rfl⟩)

end Sys2Proof.Machine
end

section
/-! SUPPORT. The proofs of the statements on LOAD and STORE (42_load_store.md R100, R101). -/

set_option autoImplicit false

namespace Sys2Proof.Machine

theorem exec_load_of_le {a : Nat} (ha : a ≤ 99) (s : State) :
    exec (.load a) s = .next (s.setAcc (s.dataWord a)).advance :=
  withData_of_le ha s fun v => (s.setAcc v).advance

/-- Settles O23: STORE is the data port's write and the advance, and the law of that port says what becomes of every cell. -/
theorem storeWritesAccumulator : Obligations.StoreWritesAccumulator := by
  intro a s ha hcanon
  exact ⟨decodeOfEncode (.store a) ha, writeDataOf s.store a s.acc, exec_store_of_le ha s, storedAt_writeDataOf hcanon a s.acc⟩

/-- Settles O22: the operand is an address, and LOAD is the data port's read and the advance. -/
theorem loadCopiesDataWord : Obligations.LoadCopiesDataWord := by
  intro a s ha
  exact ⟨decodeOfEncode (.load a) ha, exec_load_of_le ha s⟩

end Sys2Proof.Machine
end

section
/-! SUPPORT. The proofs of the arithmetic statements (43_arithmetic.md R111 to R120): the two ways a result is delivered, each
instruction as one of them, and what the truncating division gives at each combination of signs. -/

set_option autoImplicit false

namespace Sys2Proof.Machine

/-! ### The delivery of a result (R110, R116) -/

/-- A checked delivery, as the statements write it. -/
theorem deliverChecked_eq (s : State) (r : Int) :
    deliverChecked s r =
      if -9999 ≤ r ∧ r ≤ 9999 then { s with acc := r, ip := s.ip + 1 } else s.faulted .arithmeticOverflow := by
  rw [deliverChecked, State.raiseFault_eq_faulted]
  rfl

theorem deliverDivided_of_zero {d : Int} (h : d = 0) (s : State) (k : FaultKind) (r : Int) :
    deliverDivided s d k r = s.faulted k :=
  (if_pos h).trans (State.raiseFault_eq_faulted s k)

theorem deliverDivided_of_ne_zero {d : Int} (h : d ≠ 0) (s : State) (k : FaultKind) (r : Int) :
    deliverDivided s d k r = (s.setAcc r).advance :=
  if_neg h

section
variable {a : Nat} (ha : a ≤ 99) (s : State)
include ha

theorem exec_add_of_le : exec (.add a) s = .next (deliverChecked s (s.acc + s.dataWord a)) :=
  withData_of_le ha s fun d => deliverChecked s (s.acc + d)

theorem exec_subtract_of_le : exec (.subtract a) s = .next (deliverChecked s (s.acc - s.dataWord a)) :=
  withData_of_le ha s fun d => deliverChecked s (s.acc - d)

theorem exec_multiply_of_le : exec (.multiply a) s = .next (deliverChecked s (s.acc * s.dataWord a)) :=
  withData_of_le ha s fun d => deliverChecked s (s.acc * d)

theorem exec_divide_of_le :
    exec (.divide a) s = .next (deliverDivided s (s.dataWord a) .divisionByZero (s.acc.tdiv (s.dataWord a))) :=
  withData_of_le ha s fun d => deliverDivided s d .divisionByZero (s.acc.tdiv d)

theorem exec_remainder_of_le :
    exec (.remainder a) s = .next (deliverDivided s (s.dataWord a) .remainderByZero (s.acc.tmod (s.dataWord a))) :=
  withData_of_le ha s fun d => deliverDivided s d .remainderByZero (s.acc.tmod d)

theorem exec_divide_of_ne_zero (hd : s.dataWord a ≠ 0) :
    exec (.divide a) s = .next (s.setAcc (s.acc.tdiv (s.dataWord a))).advance := by
  rw [exec_divide_of_le ha, deliverDivided_of_ne_zero hd]

theorem exec_remainder_of_ne_zero (hd : s.dataWord a ≠ 0) :
    exec (.remainder a) s = .next (s.setAcc (s.acc.tmod (s.dataWord a))).advance := by
  rw [exec_remainder_of_le ha, deliverDivided_of_ne_zero hd]

end

/-! ### ADD, SUBTRACT and MULTIPLY (R111, R112, R115, R116) -/

/-- Settles O24: each of the three is the checked delivery of its exact result, which is refused outside the Word range. -/
theorem overflowLaw : Obligations.OverflowLaw := by
  intro a s i r ha hi
  have hexec : exec i s = .next (deliverChecked s r) := by
    obtain ⟨rfl, rfl⟩ | ⟨rfl, rfl⟩ | ⟨rfl, rfl⟩ := hi
    · exact exec_add_of_le ha s
    · exact exec_subtract_of_le ha s
    · exact exec_multiply_of_le ha s
  refine ⟨fun hlo hhi => ?_, fun hout => ?_⟩
  · rw [hexec, deliverChecked_of_inWord ⟨hlo, hhi⟩]
    rfl
  · have hr : ¬ inWord r := by unfold inWord; omega
    exact ⟨s.raiseFault .arithmeticOverflow, by rw [hexec, deliverChecked_of_overflow hr], rfl, rfl, rfl, rfl⟩

/-- Settles O25: ADD is the checked delivery of the sum. -/
theorem addIsExactOrFaults : Obligations.AddIsExactOrFaults := by
  intro a s ha
  exact ⟨decodeOfEncode (.add a) ha, by rw [exec_add_of_le ha, deliverChecked_eq]⟩

/-- Settles O26: SUBTRACT is the checked delivery of the difference. -/
theorem subtractIsExactOrFaults : Obligations.SubtractIsExactOrFaults := by
  intro a s ha
  exact ⟨decodeOfEncode (.subtract a) ha, by rw [exec_subtract_of_le ha, deliverChecked_eq]⟩

/-- Settles O27: MULTIPLY is the checked delivery of the product. -/
theorem multiplyIsExactOrFaults : Obligations.MultiplyIsExactOrFaults := by
  intro a s ha
  exact ⟨decodeOfEncode (.multiply a) ha, by rw [exec_multiply_of_le ha, deliverChecked_eq]⟩

/-! ### The truncating division by sign and by magnitude (R117, R118, R119) -/

theorem tdiv_of_nonpos {x : Int} (hx : x ≤ 0) (d : Int) : x.tdiv d = -(-x / d) := by
  rw [← Int.tdiv_eq_ediv_of_nonneg (Int.neg_nonneg_of_nonpos hx), Int.neg_tdiv, neg_neg]

/-- The remainder is not above zero where the dividend is not. -/
theorem tmod_nonpos {x : Int} (hx : x ≤ 0) (d : Int) : x.tmod d ≤ 0 := by
  have hneg : 0 ≤ -x.tmod d := Int.neg_tmod x d ▸ Int.tmod_nonneg d (Int.neg_nonneg_of_nonpos hx)
  exact Int.nonpos_of_neg_nonneg hneg

theorem abs_tdiv_le_abs (x d : Int) : |x.tdiv d| ≤ |x| := by
  rw [Int.abs_eq_natAbs, Int.abs_eq_natAbs, Int.ofNat_le]
  exact Int.natAbs_tdiv_le_natAbs x d

theorem abs_tmod_lt_abs (x : Int) {d : Int} (hd : d ≠ 0) : |x.tmod d| < |d| := by
  rw [Int.abs_eq_natAbs, Int.abs_eq_natAbs, Int.ofNat_lt, Int.natAbs_tmod]
  exact Nat.mod_lt x.natAbs (Int.natAbs_pos.2 hd)

theorem abs_tmod_le_abs (x d : Int) : |x.tmod d| ≤ |x| := by
  rw [Int.abs_eq_natAbs, Int.abs_eq_natAbs, Int.ofNat_le, Int.natAbs_tmod]
  exact Nat.mod_le x.natAbs d.natAbs

/-! ### DIVIDE and REMAINDER (R113, R114, R117, R118, R119) -/

/-- Settles O28: the sign of the dividend moves out of the truncating quotient, which leaves the quotient `/` of a dividend not below
zero; there the sign of the divisor moves out too. -/
theorem divideTruncatesOrFaults : Obligations.DivideTruncatesOrFaults := by
  intro a s ha
  refine ⟨decodeOfEncode (.divide a) ha, fun hd => ?_, fun hd => ?_⟩
  · rw [exec_divide_of_le ha, deliverDivided_of_zero hd]
  · refine ⟨s.acc.tdiv (s.dataWord a), exec_divide_of_ne_zero ha s hd, fun hx _ => ?_, fun hx _ => ?_, fun hx _ => ?_,
      fun hx _ => ?_, abs_tdiv_le_abs _ _⟩
    · exact Int.tdiv_eq_ediv_of_nonneg hx
    · exact tdiv_of_nonpos hx _
    · rw [Int.tdiv_eq_ediv_of_nonneg hx, Int.ediv_neg, neg_neg]
    · rw [tdiv_of_nonpos hx, Int.ediv_neg]

/-- Settles O29: the remainder is what the truncating quotient leaves, on the dividend's side of zero. -/
theorem remainderFollowsDividendOrFaults : Obligations.RemainderFollowsDividendOrFaults := by
  intro a s ha
  refine ⟨decodeOfEncode (.remainder a) ha, fun hd => ?_, fun hd => ?_⟩
  · rw [exec_remainder_of_le ha, deliverDivided_of_zero hd]
  · exact ⟨s.acc.tmod (s.dataWord a), exec_remainder_of_ne_zero ha s hd, (Int.tdiv_mul_add_tmod _ _).symm,
      fun hx => Int.tmod_nonneg _ hx, fun hx => tmod_nonpos hx _, abs_tmod_lt_abs _ hd, abs_tmod_le_abs _ _⟩

/-- Settles O30: a divisor other than 0 leads past the fault, and the truncating division keeps the Word range. -/
theorem quotientsAndRemaindersAreWords : Obligations.QuotientsAndRemaindersAreWords := by
  intro a s ha hacc _ hd
  refine ⟨⟨_, exec_divide_of_ne_zero ha s hd, rfl, inWord_tdiv hacc _, abs_tdiv_le_abs _ _, fun hx hm => ?_⟩,
    ⟨_, exec_remainder_of_ne_zero ha s hd, rfl, inWord_tmod hacc _, abs_tmod_lt_abs _ hd⟩⟩
  rw [State.advance_acc, State.setAcc_acc, hx, hm]
  decide

end Sys2Proof.Machine
end

section
/-! SUPPORT. The proofs of the statements on control (44_control.md R130 to R134): where each branch leads, what HALT puts out, and that
a machine that ended normally still stands on its HALT. -/

set_option autoImplicit false

namespace Sys2Proof.Machine

/-! ### A normal end (R134, 70_reset_and_hazards.md R209) -/

theorem exec_halt (a : Nat) (s : State) : exec (.halt a) s = .next s.haltNormal := rfl

/-- The latch holds the Word at `ip`, and that Word is a HALT. -/
structure State.StandsOnHalt (s : State) : Prop where
  ipInMemory : s.ip < 100
  latched : s.programWord s.ip = s.ir
  isHalt : ∃ a, decode s.ir = .ok (.halt a)

/-- The cycle that ends a run normally leaves its HALT in the latch and at `ip`. -/
theorem step_to_haltedNormal_standsOnHalt {s t : State} (hes : s.es = .running) (hx : step s = .next t)
    (ht : t.es = .haltedNormal) : t.StandsOnHalt := by
  obtain ⟨-, hend, -⟩ := ipMovesByTheTable s t hes hx
  obtain ⟨hip, a, hd⟩ := hend.1 ht
  rw [step_of_decode_ok hes hip hd, exec_halt] at hx
  cases hx
  exact ⟨hip, rfl, a, hd⟩

/-- Of the ways to reach a state only a step ends a run, and a machine that has ended takes no cycle and no call but more input. -/
theorem Reachable.standsOnHalt {s : State} (hs : Reachable s) (hes : s.es = .haltedNormal) : s.StandsOnHalt := by
  induction hs with
  | reset | restart => cases hes
  | supply s cs _ ih =>
    obtain ⟨hip, hlatched, hhalt⟩ := ih hes
    exact ⟨hip, hlatched, hhalt⟩
  | load s t _ hx =>
    obtain ⟨hidle, ⟨-, rfl⟩ | ⟨la, -, rfl⟩⟩ := load_cases hx
    · simp [hidle] at hes
    · simp [hidle] at hes
  | launch s t _ hx =>
    obtain ⟨-, rfl, -⟩ := launch_cases hx
    cases hes
  | step s t _ hx ih =>
    by_cases hrun : s.es = .running
    · exact step_to_haltedNormal_standsOnHalt hrun hx hes
    · cases (step_outside_run hrun).symm.trans hx
      exact ih hes

/-- Settles O48: a reachable machine that ended normally stands on its HALT, and the invariant says the rest: no fault is latched, and
the latched opcode is that of the latched Word. -/
theorem normalEndShowsItsHalt : Obligations.NormalEndShowsItsHalt := by
  intro s hs hes
  obtain ⟨hInv, -⟩ := reachableStatesAreGood s hs
  obtain ⟨hip, hlatched, a, hd⟩ := hs.standsOnHalt hes
  obtain ⟨ha, hir⟩ : a ≤ 99 ∧ s.ir = 4300 + a := (wordsOfEachInstruction s.ir (.halt a) hInv.irWord).1 hd
  have hopc : s.opc = 43 := (congrArg Prod.fst hInv.latch).trans (decode_eq_ok.1 hd).1.symm
  exact ⟨hInv.fc_eq_none (by simp [hes]), hopc, by omega, by omega, hip, hlatched, by simp [runOutcome, hes]⟩

/-! ### The branches (R130, R131, R132) -/

/-- A conditional branch to an address only moves `ip`. -/
theorem branchIf_of_le (p : Prop) [Decidable p] {a : Nat} (ha : a ≤ 99) (s : State) :
    branchIf (decide p) a s = .next (s.jump (if p then a else s.ip + 1)) := by
  by_cases hp : p
  · rw [decide_eq_true hp, if_pos hp]
    exact withAddress_of_le ha s _
  · rw [decide_eq_false hp, if_neg hp]
    rfl

theorem exec_branch_of_le {a : Nat} (ha : a ≤ 99) (s : State) : exec (.branch a) s = .next (s.jump a) :=
  withAddress_of_le ha s _

/-- Settles O31: the operand is an address, and BRANCH is the jump to it. -/
theorem branchSetsIp : Obligations.BranchSetsIp := by
  intro a s ha
  exact ⟨decodeOfEncode (.branch a) ha, exec_branch_of_le ha s⟩

/-- Settles O32: BRANCHNEG is the conditional branch on a negative accumulator. -/
theorem branchnegTestsAccumulator : Obligations.BranchnegTestsAccumulator := by
  intro a s ha
  exact ⟨decodeOfEncode (.branchneg a) ha, branchIf_of_le (s.acc < 0) ha s⟩

/-- Settles O33: BRANCHZERO is the conditional branch on a zero accumulator. -/
theorem branchzeroTestsAccumulator : Obligations.BranchzeroTestsAccumulator := by
  intro a s ha
  exact ⟨decodeOfEncode (.branchzero a) ha, branchIf_of_le (s.acc = 0) ha s⟩

/-! ### HALT (R134) -/

/-- Normal termination, as one record. -/
theorem State.haltNormal_eq (s : State) :
    s.haltNormal = { s with es := .haltedNormal, output := s.output ++ [.notice .terminated, .report s.dump] } := by
  simp [State.haltNormal, State.haltProcessing, State.emit, State.dump]

/-- Settles O34: HALT is normal termination, whatever its operand. -/
theorem haltEndsTheRun : Obligations.HaltEndsTheRun := by
  intro a s ha
  refine ⟨decodeOfEncode (.halt a) ha, ?_⟩
  rw [exec_halt, State.haltNormal_eq]
  rfl

end Sys2Proof.Machine
end

section
/-! SUPPORT. The proofs of the statements on the loader (45_host_interface.md R140 to R149): the store that a program leaves, the
loader's loop on a part of the input that it consumes whole, and `load` by what the loop answers. -/

set_option autoImplicit false

namespace Sys2Proof.Machine

/-! ### The store after a program (R144) -/

/-- The store with the Words written to program memory at ascending addresses from `la`. -/
def storeProgram (st : Store) (la : Nat) : List Int → Store
  | [] => st
  | w :: ws => storeProgram (writeProgramOf st la w) (la + 1) ws

theorem storeProgram_cons (st : Store) (la : Nat) (w : Int) (ws : List Int) :
    storeProgram st la (w :: ws) = storeProgram (writeProgramOf st la w) (la + 1) ws := rfl

theorem storeProgram_append (ws vs : List Int) (la : Nat) (st : Store) :
    storeProgram st la (ws ++ vs) = storeProgram (storeProgram st la ws) (la + ws.length) vs := by
  induction ws generalizing la st with
  | nil => rfl
  | cons w ws ih =>
    rw [List.cons_append, storeProgram_cons, ih, storeProgram_cons, List.length_cons, Nat.add_right_comm, Nat.add_assoc]

@[simp] theorem isUnified_storeProgram (ws : List Int) (la : Nat) (st : Store) :
    isUnified (storeProgram st la ws) = isUnified st := by
  induction ws generalizing la st with
  | nil => rfl
  | cons w ws ih => rw [storeProgram_cons, ih, isUnified_writeProgramOf]

theorem dataOf_storeProgram_split {st : Store} (h : isUnified st = false) (ws : List Int) (la : Nat) :
    dataOf (storeProgram st la ws) = dataOf st := by
  induction ws generalizing la st with
  | nil => rfl
  | cons w ws ih =>
    rw [storeProgram_cons, ih ((isUnified_writeProgramOf st la w).trans h), dataOf_writeProgramOf_split h]

/-- A cell outside the addresses of the program is as before. -/
theorem programCell_storeProgram_outside {ws : List Int} {la : Nat} {st : Store} (hst : storeCanonical st)
    (hfit : la + ws.length ≤ 100) {k : Nat} (hk : k < la ∨ la + ws.length ≤ k) :
    readCell (programOf (storeProgram st la ws)) k = readCell (programOf st) k := by
  induction ws generalizing la st with
  | nil => rfl
  | cons w ws ih =>
    rw [List.length_cons] at hfit hk
    have hcanon : storeCanonical (writeProgramOf st la w) := writeProgramOf_canonical hst (by omega) w
    rw [storeProgram_cons, ih hcanon (by omega) (by omega), programOf_writeProgramOf]
    exact readCell_write_other (hst _ (programOf_mem_regions st)) w (by omega)

/-- The Word at index `k` of the program stands `k` cells above the load address. -/
theorem programCell_storeProgram_inside {ws : List Int} {la : Nat} {st : Store} (hst : storeCanonical st)
    (hfit : la + ws.length ≤ 100) {k : Nat} {v : Int} (hk : ws[k]? = some v) :
    readCell (programOf (storeProgram st la ws)) (la + k) = v := by
  induction ws generalizing la st k with
  | nil => simp at hk
  | cons w ws ih =>
    rw [List.length_cons] at hfit
    have hcanon : storeCanonical (writeProgramOf st la w) := writeProgramOf_canonical hst (by omega) w
    rw [storeProgram_cons]
    cases k with
    | zero =>
      obtain rfl : w = v := by simpa using hk
      rw [Nat.add_zero, programCell_storeProgram_outside hcanon (by omega) (by omega), programOf_writeProgramOf]
      exact readCell_write_same (hst _ (programOf_mem_regions st)) la w
    | succ k =>
      rw [Nat.add_comm k 1, ← Nat.add_assoc]
      exact ih hcanon (by omega) (by simpa using hk)

/-! ### The loader's loop on a part of the input that it consumes whole (R143, R146, R149) -/

theorem validForRead_eq_some {c : Candidate} {v : Int} : validForRead c = some v ↔ c = .value v ∧ inWord v := by
  cases c with
  | unparsable => simp [validForRead]
  | value x =>
    simp only [validForRead, Option.ite_none_right_eq_some, Option.some.injEq, Candidate.value.injEq]
    exact ⟨fun ⟨hx, hv⟩ => ⟨hv, hv ▸ hx⟩, fun ⟨hv, hx⟩ => ⟨hv ▸ hx, hv⟩⟩

theorem loadLoop_rejected {p : LoaderFullPolicy} {la : Nat} (h : stopsAtFull p la = false) {c : Candidate}
    (hs : c ≠ .value (-99999)) (hc : validForRead c = none) (st : Store) (cs : List Candidate) :
    loadLoop p la st (c :: cs) = loadLoop p la st cs := by
  cases c with
  | unparsable => exact loadLoop_unparsable h
  | value v =>
    have hv : ¬ inWord v := by simpa [validForRead] using hc
    exact loadLoop_outOfRange h (by simpa using hs) hv

/-- Where the loop runs out of candidates, it has consumed all of them, and it goes on with more as if they had been there. -/
theorem loadLoop_append_of_loading {p : LoaderFullPolicy} {cs left : List Candidate} {la la' : Nat} {st st' : Store}
    (h : loadLoop p la st cs = (.loading la', st', left)) (more : List Candidate) :
    left = [] ∧ loadLoop p la st (cs ++ more) = loadLoop p la' st' more := by
  induction cs generalizing la st with
  | nil =>
    cases hf : stopsAtFull p la with
    | true => simp [loadLoop_full hf] at h
    | false =>
      obtain ⟨rfl, rfl, rfl⟩ : la = la' ∧ st = st' ∧ [] = left := by simpa [loadLoop_nil hf] using h
      exact ⟨rfl, rfl⟩
  | cons c cs ih =>
    cases hf : stopsAtFull p la with
    | true => simp [loadLoop_full hf] at h
    | false =>
      by_cases hs : c = .value (-99999)
      · simp [hs, loadLoop_sentinel hf] at h
      · cases hc : validForRead c with
        | none =>
          rw [loadLoop_rejected hf hs hc] at h
          rw [List.cons_append, loadLoop_rejected hf hs hc]
          exact ih h
        | some v =>
          obtain ⟨rfl, hv⟩ := validForRead_eq_some.1 hc
          by_cases hfull : 100 ≤ la
          · simp [loadLoop_tooLarge hf hv hfull] at h
          · rw [loadLoop_accept hf hv (Nat.lt_of_not_le hfull)] at h
            rw [List.cons_append, loadLoop_accept hf hv (Nat.lt_of_not_le hfull)]
            exact ih h

/-- The Words that the loader takes from candidates (R142, R143). -/
def programWords (cs : List Candidate) : List Int := cs.filterMap validForRead

/-- The longest program that a policy admits before a sentinel (R145, D10). -/
def longestProgram : LoaderFullPolicy → Nat
  | .faultAfter100thWrite => 99
  | .faultOn101stWord => 100

theorem le_longestProgram (p : LoaderFullPolicy) : 99 ≤ longestProgram p := by
  cases p <;> decide

theorem longestProgram_le (p : LoaderFullPolicy) : longestProgram p ≤ 100 := by
  cases p <;> decide

/-- After a program that is admitted the loader asks for another candidate. -/
theorem stopsAtFull_of_le_longestProgram {p : LoaderFullPolicy} {la : Nat} (h : la ≤ longestProgram p) :
    stopsAtFull p la = false := by
  cases p with
  | faultAfter100thWrite => exact stopsAtFull_eq_false (.inl h)
  | faultOn101stWord => exact stopsAtFull_eq_false (.inr rfl)

/-- A program that fits is written whole, and the loop waits at the address after it. -/
theorem loadLoop_of_fits {p : LoaderFullPolicy} {cs : List Candidate} (hs : ∀ c ∈ cs, c ≠ .value (-99999)) {la : Nat}
    {st : Store} (hfit : la + (programWords cs).length ≤ longestProgram p) :
    loadLoop p la st cs = (.loading (la + (programWords cs).length), storeProgram st la (programWords cs), []) := by
  induction cs generalizing la st with
  | nil => exact loadLoop_nil (stopsAtFull_of_le_longestProgram hfit)
  | cons c cs ih =>
    have hf : stopsAtFull p la = false := stopsAtFull_of_le_longestProgram ((Nat.le_add_right _ _).trans hfit)
    obtain ⟨hsc, hscs⟩ := List.forall_mem_cons.1 hs
    cases hc : validForRead c with
    | none =>
      have hw : programWords (c :: cs) = programWords cs := List.filterMap_cons_none hc
      rw [hw] at hfit ⊢
      rw [loadLoop_rejected hf hsc hc, ih hscs hfit]
    | some v =>
      have hw : programWords (c :: cs) = v :: programWords cs := List.filterMap_cons_some hc
      rw [hw, List.length_cons, ← Nat.add_assoc, Nat.add_right_comm] at hfit ⊢
      obtain ⟨rfl, hv⟩ := validForRead_eq_some.1 hc
      have hla : la < 100 := by have := longestProgram_le p; omega
      rw [loadLoop_accept hf hv hla, ih hscs hfit, storeProgram_cons]

/-- So what follows a program that fits finds the loop at the address after it. -/
theorem loadLoop_append_of_fits {p : LoaderFullPolicy} {cs : List Candidate} (hs : ∀ c ∈ cs, c ≠ .value (-99999))
    (hfit : (programWords cs).length ≤ longestProgram p) (st : Store) (more : List Candidate) :
    loadLoop p 0 st (cs ++ more) = loadLoop p (programWords cs).length (storeProgram st 0 (programWords cs)) more := by
  rw [← Nat.zero_add (programWords cs).length] at hfit ⊢
  exact (loadLoop_append_of_loading (loadLoop_of_fits hs hfit) more).2

/-! ### `load` by what the loop answers (R141, R158) -/

theorem State.runLoader_of_loadLoop_eq {s : State} {la : Nat} {phase : LoaderPhase} {st : Store} {left : List Candidate}
    (h : loadLoop s.config.loaderFull la s.store s.input = (phase, st, left)) :
    s.runLoader la =
      { s with loader := phase, store := st, input := left, ip := Config.ipAfterLoad s.draws, draws := s.draws + 1 } := by
  rw [State.runLoader, h]

theorem load_of_notCalled {s : State} (hes : s.es = .idle) (hl : s.loader = .notCalled) : load s = .next (s.runLoader 0) := by
  simp [load, hes, hl]

theorem load_of_loading {s : State} (hes : s.es = .idle) {la : Nat} (hl : s.loader = .loading la) :
    load s = .next (s.runLoader la) := by
  simp [load, hes, hl]

theorem launch_of_programTooLarge {s : State} (hes : s.es = .idle) (hl : s.loader = .returned .programTooLarge) :
    launch s = .refused .runAfterProgramTooLarge := by
  simp [launch, hes, hl]

theorem launch_of_empty {s : State} (hes : s.es = .idle) (hl : s.loader = .returned (.ok 0)) :
    launch s = .refused .runOfEmptyProgram := by
  simp [launch, hes, hl]

/-- Settles O49: the loop writes the program, which fits, and finds the sentinel. -/
theorem loadWritesTheProgram : Obligations.LoadWritesTheProgram := by
  intro s cs rest ws hes hl hcanon hin hs hws hlen
  obtain rfl : ws = programWords cs := hws
  have hfit : (programWords cs).length ≤ longestProgram s.config.loaderFull := by
    obtain hlt | ⟨hlen, hp⟩ := hlen
    · exact hlt.trans (le_longestProgram _)
    · rw [hp, hlen, longestProgram]
  have hfit' : 0 + (programWords cs).length ≤ 100 := by omega
  have hloop : loadLoop s.config.loaderFull 0 s.store s.input =
      (.returned (.ok (programWords cs).length), storeProgram s.store 0 (programWords cs), rest) := by
    rw [hin, loadLoop_append_of_fits hs hfit, loadLoop_sentinel (stopsAtFull_of_le_longestProgram hfit)]
  refine ⟨_, load_of_notCalled hes hl, ?_⟩
  rw [State.runLoader_of_loadLoop_eq hloop]
  refine ⟨rfl, rfl, rfl, Nat.le_of_lt_succ (Config.ipAfterLoad s.draws).isLt, rfl, rfl, rfl, rfl, hes, rfl,
    isUnified_storeProgram _ _ _, fun k v hk => ?_, fun k hk => ?_, fun hu => ?_, fun hu k => ?_, fun hnil => ?_⟩
  · exact Nat.zero_add k ▸ programCell_storeProgram_inside hcanon hfit' hk
  · exact programCell_storeProgram_outside hcanon hfit' (by omega)
  · exact dataOf_storeProgram_split hu _ 0
  · exact State.dataWord_eq_programWord_unified ((isUnified_storeProgram _ _ _).trans hu) k
  · exact ⟨_, launch_of_empty hes (by simp [hnil])⟩

/-- Where the loop meets one Word too many (R145): what it has written then is the first hundred Words. -/
theorem loadLoop_overfull {p : LoaderFullPolicy} {cs rest : List Candidate} (hs : ∀ c ∈ cs, c ≠ .value (-99999)) {v : Int}
    (hv : inWord v) {st : Store} (hlen : (programWords cs).length = longestProgram p) :
    loadLoop p 0 st (cs ++ .value v :: rest) =
      (.returned .programTooLarge, storeProgram st 0 ((programWords cs ++ [v]).take 100), rest) := by
  rw [loadLoop_append_of_fits hs hlen.le]
  cases p with
  | faultAfter100thWrite =>
    have hlen : (programWords cs).length = 99 := hlen
    rw [hlen, loadLoop_accept rfl hv (by decide), loadLoop_full rfl, List.take_of_length_le (by simp [hlen]),
      storeProgram_append, hlen, Nat.zero_add]
    rfl
  | faultOn101stWord =>
    have hlen : (programWords cs).length = 100 := hlen
    rw [hlen, loadLoop_tooLarge rfl hv (Nat.le_refl 100), List.take_left' hlen]

/-- Settles O50: under either policy the loop has written the first hundred Words when it stops. -/
theorem loadStopsWhenMemoryIsFull : Obligations.LoadStopsWhenMemoryIsFull := by
  intro s cs rest ws v hes hl hcanon hv hin hs hws hlen
  obtain rfl : ws = programWords cs := hws
  have hfull : (programWords cs).length = longestProgram s.config.loaderFull :=
    hlen.trans (by cases s.config.loaderFull <;> rfl)
  have hloop : loadLoop s.config.loaderFull 0 s.store s.input =
      (.returned .programTooLarge, storeProgram s.store 0 ((programWords cs ++ [v]).take 100), rest) := by
    rw [hin, loadLoop_overfull hs hv hfull]
  have hfit : 0 + ((programWords cs ++ [v]).take 100).length ≤ 100 := by simp
  refine ⟨_, load_of_notCalled hes hl, ?_⟩
  rw [State.runLoader_of_loadLoop_eq hloop]
  refine ⟨rfl, rfl, hes, rfl, fun k w hk hlt => ?_, fun k hk => ?_, launch_of_programTooLarge hes rfl⟩
  · have hk' : ((programWords cs ++ [v]).take 100)[k]? = some w := by rwa [List.getElem?_take_of_lt hlt]
    exact Nat.zero_add k ▸ programCell_storeProgram_inside hcanon hfit hk'
  · exact programCell_storeProgram_outside hcanon hfit (by omega)

/-! ### A load that waits (R149) -/

/-- A loader that waits goes on with more candidates as the loop does that had all of them at once. -/
theorem loadLoop_supply_runLoader {s : State} {la la' : Nat} (h : (s.runLoader la).loader = .loading la') (more : List Candidate) :
    loadLoop s.config.loaderFull la' ((s.runLoader la).supply more).store ((s.runLoader la).supply more).input =
      loadLoop s.config.loaderFull la s.store (s.supply more).input := by
  have hloop : loadLoop s.config.loaderFull la s.store s.input = (.loading la', (s.runLoader la).store, (s.runLoader la).input) :=
    Prod.ext h rfl
  obtain ⟨hleft, hgo⟩ := loadLoop_append_of_loading hloop more
  rw [State.supply_store, State.supply_input, State.supply_input, hleft, List.nil_append, hgo]

/-- Settles O51: whether the call is new or waits already, the loop goes on where it stood. -/
theorem waitingLoadGoesOn : Obligations.WaitingLoadGoesOn := by
  intro s t la more hx hla
  obtain ⟨la₀, rfl, hes, hall⟩ : ∃ la₀, t = s.runLoader la₀ ∧ s.es = .idle ∧
      load (s.supply more) = .next ((s.supply more).runLoader la₀) := by
    obtain ⟨hes, ⟨hl, rfl⟩ | ⟨la₀, hl, rfl⟩⟩ := load_cases hx
    · exact ⟨0, rfl, hes, load_of_notCalled hes hl⟩
    · exact ⟨la₀, rfl, hes, load_of_loading (s := s.supply more) hes hl⟩
  have hgo := loadLoop_supply_runLoader hla more
  exact ⟨_, _, load_of_loading (s := (s.runLoader la₀).supply more) hes hla, hall, congrArg (·.2.1) hgo, congrArg (·.1) hgo,
    congrArg (·.2.2) hgo, rfl, rfl⟩

end Sys2Proof.Machine
end

section
/-! SUPPORT. The proofs of the statements on what ends a step and what has none, and on `run`, `dump`
and the report (45_host_interface.md R149 to R158). -/

set_option autoImplicit false

namespace Sys2Proof.Machine

/-- Settles O46: a step that ends the run puts out the notice and the report, and any other at most one Word. -/
theorem stepKeepsTheOutputOrder : Obligations.StepKeepsTheOutputOrder := by
  intro s t hInv h hx
  exact step_keeps_outputOrder hInv h hx

/-- Settles O57: a step answers a next state or finds the machine blocked in a READ (`step_next_or_stuck`), and never both. -/
theorem onlyABlockedReadHasNoStep : Obligations.OnlyABlockedReadHasNoStep := by
  intro s
  obtain ⟨t, ht⟩ | ⟨hwait, hstuck⟩ := step_next_or_stuck s
  · have hw : ¬ s.WaitsInRead := fun hwait => by cases ht.symm.trans hwait.step_eq_stuck
    simp [ht, hw]
  · simp [hstuck, hwait]

/-! ### `run` and the calls that are refused (R152 to R154, R157, R158) -/

theorem launch_of_loaded {s : State} (hes : s.es = .idle) {n : Nat} (hl : s.loader = .returned (.ok n)) (hn : 1 ≤ n) :
    launch s = .next s.start := by
  simp [launch, hes, hl, Nat.ne_of_gt hn]

theorem launch_of_notCalled {s : State} (hes : s.es = .idle) (hl : s.loader = .notCalled) :
    launch s = .refused .runWithoutLoad := by
  simp [launch, hes, hl]

theorem launch_ne_fault (s : State) (f : Fault) : launch s ≠ .fault f := by
  unfold launch
  split
  · simp
  · split
    · split <;> simp
    · simp
    · simp
    · simp

theorem load_of_returned {s : State} (hes : s.es = .idle) {r : LoadResult} (hl : s.loader = .returned r) :
    load s = .refused .secondLoad := by
  simp [load, hes, hl]

/-- Settles O52: what `launch` accepts is `launch_cases`, and the guard leads to run start. -/
theorem runGuard : Obligations.RunGuard := by
  intro s
  refine ⟨fun n hes hl hn => launch_of_loaded hes hl hn, fun t hx => ?_, launch_ne_fault s⟩
  obtain ⟨hes, -, hloaded⟩ := launch_cases hx
  exact ⟨hes, hloaded⟩

/-- Settles O53: by the engine state. -/
theorem runReturnsItsOutcome : Obligations.RunReturnsItsOutcome := by
  intro s
  unfold runOutcome State.Ended
  cases s.es <;> simp

/-- Settles O54: each refusal is one branch of its call. -/
theorem refusedCalls : Obligations.RefusedCalls := by
  intro s
  exact ⟨fun hes => ⟨if_pos hes, if_pos hes⟩, fun r hes hl => load_of_returned hes hl, launch_of_notCalled,
    launch_of_programTooLarge, fun hes => if_pos hes, fun hes => if_neg hes⟩

/-! ### The report (R155, R156) -/

@[simp] theorem allWords_length (m : Memory) : (allWords m).length = 100 := by
  simp [allWords]

theorem allWords_getElem? (m : Memory) {a : Nat} (ha : a ≤ 99) : (allWords m)[a]? = some (readCell m a) := by
  simp [allWords, Nat.lt_succ_of_le ha]

theorem dump_regions_split {s : State} (h : isUnified s.store = false) :
    s.dump.regions = [allWords (programOf s.store), allWords (dataOf s.store)] := by
  unfold State.dump
  cases hst : s.store with
  | split pm dm => rfl
  | unified m => simp [hst, isUnified] at h

theorem dump_regions_unified {s : State} (h : isUnified s.store = true) : s.dump.regions = [allWords (programOf s.store)] := by
  unfold State.dump
  cases hst : s.store with
  | split pm dm => simp [hst, isUnified] at h
  | unified m => rfl

/-- Settles O55: the regions of each configuration list the Words that its ports read. -/
theorem reportHoldsTheWholeMachine : Obligations.ReportHoldsTheWholeMachine := by
  intro s
  refine ⟨rfl, rfl, rfl, rfl, rfl, fun hu => ?_, fun hu => ?_⟩
  · exact ⟨_, _, dump_regions_split hu, allWords_length _, allWords_length _, fun a ha =>
      ⟨allWords_getElem? _ ha, allWords_getElem? _ ha⟩⟩
  · refine ⟨_, dump_regions_unified hu, allWords_length _, fun a ha => ⟨allWords_getElem? _ ha, ?_⟩⟩
    rw [State.dataWord_eq_programWord_unified hu]
    exact allWords_getElem? _ ha

theorem showCell_plus_iff (v : Int) : (showCell v).sign = .plus ↔ 0 ≤ v := by
  simp [showCell]

theorem showCell_minus_iff (v : Int) : (showCell v).sign = .minus ↔ v < 0 := by
  simp [showCell]

theorem showCell_magnitude (v : Int) : ((showCell v).magnitude : Int) = |v| :=
  Int.natCast_natAbs v

/-- Row `r` and column `c` of the grid show the Word at `10 * r + c`. -/
theorem reportGrid_cell (region : List Int) {r c : Nat} (hr : r < 10) (hc : c < 10) :
    ∃ row, (reportGrid region)[r]? = some row ∧ row[c]? = some (showCell (region.getD (10 * r + c) unlistedWord)) := by
  simp [reportGrid, hr, hc]

/-- Settles O56: address `a` is `10 * (a / 10) + a % 10`, and the cell shown there has the Word's sign and magnitude. -/
theorem reportGridShowsEveryCell : Obligations.ReportGridShowsEveryCell := by
  intro m
  refine ⟨by simp [reportGrid], by simp [reportGrid], fun a ha => ?_⟩
  obtain ⟨row, hrow, hcell⟩ := reportGrid_cell (allWords m) (r := a / 10) (c := a % 10) (by omega) (by omega)
  rw [Nat.div_add_mod, List.getD_eq_getElem?_getD, allWords_getElem? m ha, Option.getD_some] at hcell
  exact ⟨row, _, hrow, hcell, showCell_plus_iff _, showCell_minus_iff _, showCell_magnitude _⟩

end Sys2Proof.Machine
end

section
/-! SUPPORT. The proofs of the statements on the fatal faults (60_exceptions.md R171 to R180): the illegal Word, the ended machine, when
a cycle faults, and what a fault leaves as it was. -/

set_option autoImplicit false

namespace Sys2Proof.Machine

/-! ### The illegal Word and the ended machine (R175, R180) -/

/-- Settles O9: decode rejects the Word, and fault termination goes on from the latched state. -/
theorem unknownOpcodeEndsRun : Obligations.UnknownOpcodeEndsRun := by
  intro s hes hip hillegal
  rw [step_of_decode_error hes hip (decode_eq_error_iff.2 hillegal), State.raiseFault_eq_faulted, State.latch_eq_fetched]

theorem State.Ended.es_ne_running {s : State} (h : s.Ended) : s.es ≠ .running := by
  obtain hnormal | hfault := h
  · simp [hnormal]
  · simp [hfault]

/-- Settles O12: no cycle runs in an ended machine; induction on the number of steps. -/
theorem endedMachineNeverMoves : Obligations.EndedMachineNeverMoves := by
  intro n s hend
  induction n with
  | zero => rfl
  | succ n ih => rw [runSteps_succ_of_next s (step_outside_run hend.es_ne_running), ih]

/-! ### What a fault changes, and the latch `fc` (R171 to R179) -/

/-- A handler raises a fault, and only that, or leaves the latch `fc` alone and the run unfaulted. The bounds are not its to check. -/
theorem exec_faults_or_keeps_fc {i : Instr} {s t : State} (hes : s.es = .running) (hx : exec i s = .next t) :
    (∃ k, k ≠ .programBoundsExceeded ∧ t = s.raiseFault k) ∨ (t.es ≠ .haltedFault ∧ t.fc = s.fc) := by
  have hunfaulted : s.es ≠ .haltedFault := by simp [hes]
  cases exec_shape hx with
  | badOperand | addFault | subtractFault | multiplyFault | divideFault | remainderFault =>
    exact .inl ⟨_, by decide, rfl⟩
  | halt => exact .inr ⟨by simp, rfl⟩
  | _ => exact .inr ⟨hunfaulted, rfl⟩

/-- So does a cycle, which checks the bounds before it fetches and latches what it fetches before it raises any other fault. -/
theorem step_faults_or_keeps_fc {s t : State} (hes : s.es = .running) (hx : step s = .next t) :
    (100 ≤ s.ip ∧ t = s.faulted .programBoundsExceeded) ∨
    (s.ip < 100 ∧ ∃ k, k ≠ .programBoundsExceeded ∧ t = s.fetched.faulted k) ∨
    (t.es ≠ .haltedFault ∧ t.fc = s.fc) := by
  simp only [← State.raiseFault_eq_faulted, ← State.latch_eq_fetched]
  rcases step_cases hx with ⟨hn, -⟩ | ⟨-, hip, rfl⟩ | ⟨-, hip, -, rfl⟩ | ⟨-, hip, i, -, hx⟩
  · exact absurd hes hn
  · exact .inl ⟨Nat.not_lt.1 hip, rfl⟩
  · exact .inr (.inl ⟨hip, _, by decide, rfl⟩)
  · have hrun : (s.latch (s.programWord s.ip)).es = .running := hes
    obtain hfault | hgoes := exec_faults_or_keeps_fc hrun hx
    · exact .inr (.inl ⟨hip, hfault⟩)
    · exact .inr (.inr hgoes)

/-- Settles O15: the cycle that faults is one of the first two ways, which are fault termination and nothing else. -/
theorem faultChangesNothingElse : Obligations.FaultChangesNothingElse := by
  intro s t hes hx ht
  obtain hbounds | hother | ⟨hn, -⟩ := step_faults_or_keeps_fc hes hx
  · exact .inl hbounds
  · exact .inr hother
  · exact absurd ht hn

/-- Settles O14: each way the decoded instruction can leave the state (`exec_shape`) carries the condition of its fault, and where no
fault is raised the empty latch is kept. -/
theorem whenACycleFaults : Obligations.WhenACycleFaults := by
  intro s t hes hfc hx
  refine ⟨?_, ?_⟩
  · rcases step_cases hx with ⟨hn, -⟩ | ⟨-, hip, rfl⟩ | ⟨-, hip, ⟨e, hd⟩, rfl⟩ | ⟨-, hip, i, hd, hx⟩
    · exact absurd hes hn
    · simp [hip]
    · simp [hip, hd]
    · have hop : i.operand ≤ 99 := operand_le_of_decode hd
      rw [if_pos hip, hd]
      cases exec_shape hx with
      | badOperand _ hbad => omega
      | addFault _ _ hr | subtractFault _ _ hr | multiplyFault _ _ hr => exact (if_neg hr).symm
      | divideFault _ _ hzero | remainderFault _ _ hzero => exact (if_pos hzero).symm
      | add _ _ hr | subtract _ _ hr | multiply _ _ hr => exact hfc.trans (if_pos hr).symm
      | divide _ _ hzero | remainder _ _ hzero => exact hfc.trans (if_neg hzero).symm
      | _ => exact hfc
  · obtain ⟨-, rfl⟩ | ⟨-, k, -, rfl⟩ | ⟨hn, hkeeps⟩ := step_faults_or_keeps_fc hes hx
    · simp [State.faulted]
    · simp [State.faulted]
    · simp [hn, hkeeps, hfc]

end Sys2Proof.Machine
end

section
/-! SUPPORT. The proofs of the statements on reset and hazards (70_reset_and_hazards.md R200 to R209): the Words that end a run normally,
a LOAD right behind a READ of the same cell, and what reset leaves. -/

set_option autoImplicit false

namespace Sys2Proof.Machine

/-! ### Only a HALT ends a run normally (R209) -/

/-- The hundred Words of HALT (30_encoding.md R55, R58). -/
theorem exists_decode_halt_iff {w : Int} : (∃ a, decode w = .ok (.halt a)) ↔ 4300 ≤ w ∧ w ≤ 4399 := by
  have hencode (a : Nat) : decode w = .ok (.halt a) ↔ a ≤ 99 ∧ w = 4300 + a := decode_eq_ok_iff_encode
  simp only [hencode]
  constructor
  · rintro ⟨a, ha, rfl⟩
    omega
  · intro hrange
    exact ⟨(w - 4300).toNat, by omega⟩

/-- Settles O16: only a decoded HALT ends a run normally (`ipMovesByTheTable`), and the Words that decode to it are a range. -/
theorem normalEndOnlyByHalt : Obligations.NormalEndOnlyByHalt := by
  intro s t hes hx
  obtain ⟨-, hend, -⟩ := ipMovesByTheTable s t hes hx
  rw [hend, exists_decode_halt_iff]

/-! ### A LOAD right behind a READ of the same cell (R206) -/

/-- The fetch sees no change but at the cell stored, and in the split configuration none at all. -/
theorem StoredAt.programWord_kept {s t : State} {a b : Nat} {v : Int} (h : StoredAt s.store t.store a v)
    (hb : isUnified s.store = true → b ≠ a) : t.programWord b = s.programWord b := by
  by_cases hu : isUnified s.store = true
  · obtain ⟨-, hothers⟩ := h.programWord_unified hu
    exact hothers b (hb hu)
  · exact congrArg (readCell · b) (h.split (Bool.eq_false_of_not_eq_true hu))

theorem step_of_decode_read {s : State} (hes : s.es = .running) (hip : s.ip < 100) {a : Nat}
    (hd : decode (s.programWord s.ip) = .ok (.read a)) {v : Int} {rest : List Candidate}
    (hin : takeInput s.input = some (v, rest)) :
    step s = .next (State.writeData { s.latch (s.programWord s.ip) with input := rest } a v).advance :=
  (step_of_decode_ok hes hip hd).trans (exec_read_of_valid (operand_le_of_decode hd) hin)

theorem step_of_decode_load {s : State} (hes : s.es = .running) (hip : s.ip < 100) {a : Nat}
    (hd : decode (s.programWord s.ip) = .ok (.load a)) :
    step s = .next ((s.latch (s.programWord s.ip)).setAcc (s.dataWord a)).advance :=
  (step_of_decode_ok hes hip hd).trans (exec_load_of_le (operand_le_of_decode hd) _)

/-- Settles O42: the READ stores the candidate and leaves the LOAD as it was, which is fetched next and reads the stored cell. -/
theorem loadSeesTheWordJustRead : Obligations.LoadSeesTheWordJustRead := by
  intro s a v rest hes hcanon hip hkept hv hin hread hload
  have htake : takeInput s.input = some (v, rest) := by rw [hin, takeInput_cons_valid hv]
  have hfirst := step_of_decode_read hes (by omega) hread htake
  generalize ht : (State.writeData { s.latch (s.programWord s.ip) with input := rest } a v).advance = t at hfirst
  have htes : t.es = .running := by simpa [← ht] using hes
  have htip : t.ip = s.ip + 1 := by simp [← ht]
  have hstored : StoredAt s.store t.store a v := by simpa [← ht] using storedAt_writeDataOf hcanon a v
  have hfetch : t.programWord t.ip = s.programWord (s.ip + 1) := by
    rw [htip]
    exact hstored.programWord_kept fun hu => (hkept hu).symm
  have hsecond := step_of_decode_load htes (by omega) (hfetch ▸ hload)
  exact ⟨t, _, hfirst, hsecond, by simp [← ht], hstored.cell, congrArg (· + 1) htip⟩

/-! ### Reset (R200, R201) -/

/-- Settles O43: the reset state is written out, and a machine comes back to the reset state of its own parameters. -/
theorem resetZeroesTheRegisters : Obligations.ResetZeroesTheRegisters := by
  refine fun c => ⟨rfl, rfl, rfl, rfl, rfl, rfl, fun s hs => ?_⟩
  rw [State.restart, hs]

end Sys2Proof.Machine
end
